-- ==== Sys2Proof/Word.lean ====
section
/-! DEFINITION. The words of the block: the widths of its operands and bytes (spec/00_scope.md section 5),
the four orientations (10_state.md R24), the events on the wire (10_state.md R29). -/

namespace Sys2Proof

/-- One bit, 0 or 1. -/
abbrev Bit := BitVec 1

/-- One byte of the framebuffer or of the wire (`u8`). -/
abbrev Byte := BitVec 8

/-- A signed 16-bit coordinate operand (`i16`), as the command word carries it (R68). -/
abbrev Coord := BitVec 16

/-- The 40-bit host command word (R67). -/
abbrev CmdWord := BitVec 40

/-- The rotation state: "One of four discrete orientations {0°, 90°, 180°, 270°}" (R24). The 2-bit codes are
given in Decode.lean. -/
inductive Rotation where
  /-- 0°, code 0 -/
  | deg0
  /-- 90°, code 1 -/
  | deg90
  /-- 180°, code 2 -/
  | deg180
  /-- 270°, code 3 -/
  | deg270
deriving DecidableEq, Repr

/-- One call of the transport capability, as the trace records it (R29, R100 to R103). -/
inductive BusEvent where
  /-- `assert_select()` succeeded (R101) -/
  | assertSelect
  /-- `transfer_byte(b)` succeeded (R102) -/
  | tx (b : Byte)
  /-- `deassert_select()` succeeded (R103) -/
  | deassertSelect
deriving DecidableEq, Repr

end Sys2Proof
end

