-- ==== Sys2Proof/Syntax.lean ====
section
/-! DEFINITION. The instructions: one constructor per row of spec/opcode_table.json. The nine commands are what
the host asks of the block (30_encoding.md R66); the five wire items are the bytes the block sends
(30_encoding.md R60 to R65), each one transport call of a transaction (41_protocol_encoder.md R122). -/

namespace Sys2Proof

inductive Instr where
  /-- INIT: `init(r)` (R132) -/
  | init (r : Rotation)
  /-- SET_PIXEL: `set_pixel(x, y, val)` (R88) -/
  | setPixel (val : Bit) (x y : Coord)
  /-- GET_PIXEL: `get_pixel(x, y)` (R90) -/
  | getPixel (x y : Coord)
  /-- CLEAR_BUFFER: `clear_buffer()` (R92) -/
  | clearBuffer
  /-- CLEAR_DISPLAY: `clear_display()` (R108) -/
  | clearDisplay
  /-- REFRESH: `refresh()` (R112) -/
  | refresh
  /-- SET_ROTATION: `set_rotation(r)` (R93) -/
  | setRotation (r : Rotation)
  /-- GET_WIDTH: `width()` (R133) -/
  | getWidth
  /-- GET_HEIGHT: `height()` (R134) -/
  | getHeight
  /-- WIRE_CMD_WRITE: first byte of a refresh frame, `v` the polarity it carries (R60) -/
  | wireCmdWrite (v : Bit)
  /-- WIRE_CMD_CLEAR: first byte of a clear frame, `v` the polarity it carries (R61) -/
  | wireCmdClear (v : Bit)
  /-- WIRE_LINE_ADDR: the address byte of line `l` (R63) -/
  | wireLineAddr (l : Byte)
  /-- WIRE_DATA: a framebuffer byte, verbatim (R65) -/
  | wireData (d : Byte)
  /-- WIRE_TRAILER: the zero byte (R64) -/
  | wireTrailer
deriving DecidableEq, Repr

end Sys2Proof
end

