-- ==== Sys2Proof/WellFormed.lean ====
section
/-! DEFINITION. Which instructions are well formed. The operand types already hold every command operand to
its field (30_encoding.md R67, R68), so one check is left: "The value 0 is never emitted as a line address"
(R63). -/

namespace Sys2Proof

/-- The well-formed instructions: a line address is not 0 (R63). -/
def Instr.wellFormed : Instr → Bool
  | .wireLineAddr l => l != 0#8
  | .init _ | .setPixel _ _ _ | .getPixel _ _ | .clearBuffer | .clearDisplay | .refresh | .setRotation _
  | .getWidth | .getHeight | .wireCmdWrite _ | .wireCmdClear _ | .wireData _ | .wireTrailer => true

/-- The nine rows of format cmd40: the commands the host can issue (R66). -/
def Instr.isCommand : Instr → Bool
  | .init _ | .setPixel _ _ _ | .getPixel _ _ | .clearBuffer | .clearDisplay | .refresh | .setRotation _
  | .getWidth | .getHeight => true
  | .wireCmdWrite _ | .wireCmdClear _ | .wireLineAddr _ | .wireData _ | .wireTrailer => false

end Sys2Proof
end

