-- ==== Sys2Proof/Decode.lean ====
section
/-! DEFINITION. The decoder of the host command word (30_encoding.md R67 to R69) and of a wire byte at its
position in a frame (R60 to R65, R73), then the encoder of both, written from the same tables. -/

namespace Sys2Proof

/-! ## Fields of the command word (R67) -/

/-- `op`, bits 39:36. -/
def opField (w : CmdWord) : BitVec 4 := w.extractLsb' 36 4
/-- `r`, bits 35:34. -/
def rField (w : CmdWord) : BitVec 2 := w.extractLsb' 34 2
/-- `val`, bit 32. -/
def valField (w : CmdWord) : Bit := w.extractLsb' 32 1
/-- `x`, bits 31:16. -/
def xField (w : CmdWord) : Coord := w.extractLsb' 16 16
/-- `y`, bits 15:0. -/
def yField (w : CmdWord) : Coord := w.extractLsb' 0 16

/-- "0 = 0°, 1 = 90°, 2 = 180°, 3 = 270°" (R24, D4). -/
def rotationOfCode (r : BitVec 2) : Rotation :=
  if r = 0#2 then .deg0 else if r = 1#2 then .deg90 else if r = 2#2 then .deg180 else .deg270

/-- The code of an orientation (R24, D4). -/
def rotationCode : Rotation → BitVec 2
  | .deg0 => 0#2
  | .deg90 => 1#2
  | .deg180 => 2#2
  | .deg270 => 3#2

/-! ## Decoding -/

/-- Why a word or a byte is no instruction. -/
inductive DecodeError where
  /-- `op` is one of 0x9 to 0xF (R69) -/
  | reservedOp (op : BitVec 4)
  /-- a bit is set in a field the command does not use, or in reserved bit 33 (R69) -/
  | unusedBits (op : BitVec 4)
  /-- a first byte that is none of 0x01, 0x03, 0x04, 0x06 (R60, R61) -/
  | notACommandByte (b : Byte)
  /-- a line address of 0 (R63) -/
  | zeroLineAddress
  /-- a trailer that is not 0x00 (R64) -/
  | nonZeroTrailer (b : Byte)
deriving DecidableEq, Repr

/-- `w & mask = match`: how a word selects its row of the table of R67. -/
def selects (mask pattern w : CmdWord) : Bool := w &&& mask == pattern

/-- The table of R67, row by row; a word that selects no row is illegal (R69). -/
def decodeCommand (w : CmdWord) : Except DecodeError Instr :=
  if selects 0xF3FFFFFFFF#40 0x0000000000#40 w then .ok (.init (rotationOfCode (rField w)))
  else if selects 0xFE00000000#40 0x1000000000#40 w then .ok (.setPixel (valField w) (xField w) (yField w))
  else if selects 0xFF00000000#40 0x2000000000#40 w then .ok (.getPixel (xField w) (yField w))
  else if selects 0xFFFFFFFFFF#40 0x3000000000#40 w then .ok .clearBuffer
  else if selects 0xFFFFFFFFFF#40 0x4000000000#40 w then .ok .clearDisplay
  else if selects 0xFFFFFFFFFF#40 0x5000000000#40 w then .ok .refresh
  else if selects 0xF3FFFFFFFF#40 0x6000000000#40 w then .ok (.setRotation (rotationOfCode (rField w)))
  else if selects 0xFFFFFFFFFF#40 0x7000000000#40 w then .ok .getWidth
  else if selects 0xFFFFFFFFFF#40 0x8000000000#40 w then .ok .getHeight
  else if opField w ≤ 8#4 then .error (.unusedBits (opField w))
  else .error (.reservedOp (opField w))

/-- What a wire byte is, is told by its position in the frame, never by its value (R65, R73). -/
inductive FramePosition where
  /-- the first byte of a frame -/
  | command
  /-- where a refresh frame has a line address -/
  | lineAddress
  /-- where a refresh frame has a data byte -/
  | data
  /-- where a frame has a trailer -/
  | trailer
deriving DecidableEq, Repr

/-- The wire item a byte is at a given position of a frame (R60 to R65). -/
def decodeWireAt : FramePosition → Byte → Except DecodeError Instr
  | .command, b =>
    if b &&& 0xFD#8 = 0x01#8 then .ok (.wireCmdWrite (b.extractLsb' 1 1))
    else if b &&& 0xFD#8 = 0x04#8 then .ok (.wireCmdClear (b.extractLsb' 1 1))
    else .error (.notACommandByte b)
  | .lineAddress, b => if b = 0#8 then .error .zeroLineAddress else .ok (.wireLineAddr b)
  | .data, b => .ok (.wireData b)
  | .trailer, b => if b = 0#8 then .ok .wireTrailer else .error (.nonZeroTrailer b)

/-- DESIGN CHOICE (log 20): a wire byte read without its position. A byte of a row with a real match and mask is
that row's; of the others, 1 to 248 (the values R63 and R8 allow a line address) is read as a line address and
249 to 255 as data. The machine never reads a byte this way: it stands in `decodeTableWord` alone. -/
def wireByValue (b : Byte) : Instr :=
  match decodeWireAt .command b with
  | .ok i => i
  | .error _ =>
    if b = 0#8 then .wireTrailer else if b ≤ 248#8 then .wireLineAddr b else .wireData b

/-- The instruction the decoder reads from a row's bits: a command word of 40 bits, or a wire byte by its value. -/
def decodeTableWord (nbits w : Nat) : Option Instr :=
  if nbits = 40 then
    match decodeCommand (BitVec.ofNat 40 w) with
    | .ok i => some i
    | .error _ => none
  else if nbits = 8 then some (wireByValue (BitVec.ofNat 8 w))
  else none

/-! ## Encoding -/

/-- What an instruction is written as. -/
inductive Encoded where
  /-- a 40-bit host command word (R67) -/
  | command (w : CmdWord)
  /-- one byte on the wire (R60 to R65) -/
  | wire (b : Byte)
deriving DecidableEq, Repr

/-- The layout of R67: `op`, `r`, reserved 0, `val`, `x`, `y`, from bit 39 down. -/
def commandWord (op : BitVec 4) (r : BitVec 2) (val : Bit) (x y : Coord) : CmdWord :=
  op ++ r ++ 0#1 ++ val ++ x ++ y

/-- "the polarity bit placed at bit 1 of the command byte: `vcom_bit = vcom << 1`" (R62). -/
def vcomBit (v : Bit) : Byte := v.setWidth 8 <<< 1

/-- `CMD_WRITE (0x01) | vcom_bit` (R60). -/
def writeCommandByte (v : Bit) : Byte := 0x01#8 ||| vcomBit v

/-- `CMD_CLEAR (0x04) | vcom_bit` (R61). -/
def clearCommandByte (v : Bit) : Byte := 0x04#8 ||| vcomBit v

/-- The trailer byte (R64). -/
def trailerByte : Byte := 0x00#8

/-- The encoding of every instruction (R60 to R67). -/
def encode : Instr → Encoded
  | .init r => .command (commandWord 0x0#4 (rotationCode r) 0#1 0#16 0#16)
  | .setPixel val x y => .command (commandWord 0x1#4 0#2 val x y)
  | .getPixel x y => .command (commandWord 0x2#4 0#2 0#1 x y)
  | .clearBuffer => .command (commandWord 0x3#4 0#2 0#1 0#16 0#16)
  | .clearDisplay => .command (commandWord 0x4#4 0#2 0#1 0#16 0#16)
  | .refresh => .command (commandWord 0x5#4 0#2 0#1 0#16 0#16)
  | .setRotation r => .command (commandWord 0x6#4 (rotationCode r) 0#1 0#16 0#16)
  | .getWidth => .command (commandWord 0x7#4 0#2 0#1 0#16 0#16)
  | .getHeight => .command (commandWord 0x8#4 0#2 0#1 0#16 0#16)
  | .wireCmdWrite v => .wire (writeCommandByte v)
  | .wireCmdClear v => .wire (clearCommandByte v)
  | .wireLineAddr l => .wire l
  | .wireData d => .wire d
  | .wireTrailer => .wire trailerByte

/-- Where in a frame a wire item stands (R73); a command stands in none, and `command` is given for it. -/
def framePosition : Instr → FramePosition
  | .wireLineAddr _ => .lineAddress
  | .wireData _ => .data
  | .wireTrailer => .trailer
  | .wireCmdWrite _ | .wireCmdClear _ => .command
  | .init _ | .setPixel _ _ _ | .getPixel _ _ | .clearBuffer | .clearDisplay | .refresh | .setRotation _
  | .getWidth | .getHeight => .command

/-- The instruction an encoding stands for: a word by the table of R67, a byte by its position in the frame. -/
def decodeAt (p : FramePosition) : Encoded → Except DecodeError Instr
  | .command w => decodeCommand w
  | .wire b => decodeWireAt p b

end Sys2Proof
end

