-- ==== Sys2Proof/Config.lean ====
section
/-! DEFINITION. The implementation parameters (00_scope.md section 4) and the free values: what the spec leaves
open, as constants with no body, so that no proof can see a value of them. -/

namespace Sys2Proof

/-- The parameters of one block, constant after construction (R6). They stand in the field `cfg` of the state,
so that a statement about every state is a statement about every configuration. -/
structure Config where
  /-- `W`, the native width, a u16 (R6) -/
  width : BitVec 16
  /-- `H`, the native height, a u16 (R6, R8) -/
  height : BitVec 16
  /-- `VCOM_RESET`, the polarity RESET leaves (R160, D11): OPEN -/
  vcomReset : Bit
  /-- `CLEAR_DISPLAY_CLEARS_BUFFER` (D12): the spec's value is false -/
  clearDisplayClearsBuffer : Bool
deriving DecidableEq, Repr

/-- DESIGN CHOICE (logs 1 and 2): the spec's reference configuration 128×128 (D1), the spec's value false of
`CLEAR_DISPLAY_CLEARS_BUFFER`, and 0 for the OPEN `VCOM_RESET`; unsafe. -/
def Config.reference : Config :=
  { width := 128#16, height := 128#16, vcomReset := 0#1, clearDisplayClearsBuffer := false }

/-- FREE VALUE (log 7): the byte `transfer_byte` returns, "u8_ignored" (R102, U7). Nothing reads it. -/
opaque Config.returnedByte : Nat → Byte

/-- FREE VALUE (log 17): the further transport calls of a transaction that an overlapping command interrupted,
"unspecified" (R143, U3). -/
opaque Config.callsAfterOverlap : Nat → List BusEvent

end Sys2Proof
end

