-- ==== Sys2Proof/Machine/Geometry.lean ====
section
/-! DEFINITION. What the parameters fix: the derived constants of 00_scope.md R7, the predicate `ConfigOK` of
R6 and R8, the logical extent of 40_framebuffer.md R87. -/

namespace Sys2Proof.Machine

/-- `W` as a number. -/
def nativeWidth (c : Config) : Nat := c.width.toNat

/-- `H` as a number. -/
def nativeHeight (c : Config) : Nat := c.height.toNat

/-- `BPL = W/8` (R7). -/
def bytesPerLine (c : Config) : Nat := nativeWidth c / 8

/-- `N = W*H/8` (R7). -/
def bufferBytes (c : Config) : Nat := nativeWidth c * nativeHeight c / 8

/-- `ConfigOK(W, H)` (R6, R8). -/
def configOK (c : Config) : Bool :=
  nativeWidth c != 0 && nativeHeight c != 0 && nativeWidth c % 8 == 0 && nativeHeight c % 8 == 0
    && decide (nativeHeight c ≤ 255)

/-- `LW(r)` (R87). -/
def logicalWidth (c : Config) : Rotation → BitVec 16
  | .deg0 | .deg180 => c.width
  | .deg90 | .deg270 => c.height

/-- `LH(r)` (R87). -/
def logicalHeight (c : Config) : Rotation → BitVec 16
  | .deg0 | .deg180 => c.height
  | .deg90 | .deg270 => c.width

/-- The `Tx` calls of a refresh, `2 + H*(BPL + 2)` (R118). -/
def refreshTxCount (c : Config) : Nat := 2 + nativeHeight c * (bytesPerLine c + 2)

end Sys2Proof.Machine
end

