-- ==== Sys2Proof/Machine/Operands.lean ====
section
/-! DEFINITION. The operand form of the pixel commands: from a logical coordinate to a bit of the framebuffer
(30_encoding.md R68, 40_framebuffer.md R80 to R86). All of it is over the integers, and nothing wraps (R80). -/

namespace Sys2Proof.Machine

/-- The rotation transform `T(r, x, y)`, total on Z × Z, no clipping (R81 to R84). -/
def transform (c : Config) (r : Rotation) (x y : Int) : Int × Int :=
  match r with
  | .deg0 => (x, y)
  | .deg90 => (nativeWidth c - 1 - y, x)
  | .deg180 => (nativeWidth c - 1 - x, nativeHeight c - 1 - y)
  | .deg270 => (y, nativeHeight c - 1 - x)

/-- The native coordinate a command's operands address: `x` and `y` sign-extended into Z (R68), then `T` (R48). -/
def nativeOf (c : Config) (r : Rotation) (x y : Coord) : Int × Int :=
  transform c r x.toInt y.toInt

/-- `InRange(x', y') = (0 <= x' < W and 0 <= y' < H)` (R85). -/
abbrev InRange (c : Config) (p : Int × Int) : Prop :=
  (0 ≤ p.1 ∧ p.1 < nativeWidth c) ∧ (0 ≤ p.2 ∧ p.2 < nativeHeight c)

/-- The byte index `(y'*W + x') / 8` of a native coordinate (R86). -/
def byteIndexOf (c : Config) (p : Int × Int) : Nat := ((p.2 * nativeWidth c + p.1) / 8).toNat

/-- The bit position `x' mod 8` of a native coordinate (R86). -/
def bitPositionOf (p : Int × Int) : Nat := (p.1 % 8).toNat

/-- The mask `1 << k` (R41). -/
def bitMask (k : Nat) : Byte := 1#8 <<< k

/-- `b | mask` for the value 1, `b & ~mask` for the value 0 (R88). -/
def putBit (b : Byte) (k : Nat) (v : Bit) : Byte :=
  if v = 1#1 then b ||| bitMask k else b &&& ~~~(bitMask k)

/-- Bit `k` of a byte, the bit of weight 2^k (R41). -/
def bitOf (b : Byte) (k : Nat) : Bit := BitVec.ofBool (b.getLsbD k)

end Sys2Proof.Machine
end

