-- ==== Sys2Proof/Machine/State.lean ====
section
/-! DEFINITION. The state of the block (10_state.md R20 to R32), the inputs from outside it (70_reset_and_hazards.md
R163), the reasons a step can stop, and the state after RESET (R160). Plain data throughout. -/

namespace Sys2Proof.Machine

/-- The transaction state (R22, R26). -/
inductive Select where
  /-- 0, select-deasserted: "idle, initial and terminal" -/
  | deasserted
  /-- 1, select-asserted: "mid-transaction" -/
  | asserted
deriving DecidableEq, Repr

/-- The sticky fault record with its info "kept beside it" (R27, R140, R146). -/
inductive FaultRecord where
  /-- None, code 0 -/
  | noFault
  /-- ConfigFault, code 2 (R141) -/
  | configFault
  /-- TransportFault, code 3; `k` the 0-based position of the failing call (R142) -/
  | transportFault (k : Nat)
  /-- TxnOverlap, code 4; `op` of the arriving command (R143) -/
  | txnOverlap (op : BitVec 4)
  /-- IllegalCommand, code 5; the word (R144) -/
  | illegalCommand (w : CmdWord)
deriving DecidableEq, Repr

/-- DEDUCED (log 11): the position of the encoder inside a transaction, what plays the part of a program counter
(R22): which call of R108 or R112 it makes next. -/
inductive EncoderPos where
  /-- no transaction in progress -/
  | idle
  /-- clear: the command byte, call k = 1 (R108) -/
  | clearCommand
  /-- clear: the trailer, call k = 2 (R108) -/
  | clearTrailer
  /-- clear: the deassert, call k = 3 (R108) -/
  | clearDeassert
  /-- refresh: the command byte, step 2 (R113) -/
  | refreshCommand
  /-- refresh: the first line address, step 3 (R114) -/
  | firstAddress
  /-- refresh: the data byte `byteIndex`, step 4 (R115) -/
  | data
  /-- refresh: the trailer of the line just finished, step 4 (R115) -/
  | lineTrailer
  /-- refresh: the next line's address, step 4 (R115) -/
  | lineAddress
  /-- refresh: the final trailer, step 5 (R116) -/
  | finalTrailer
  /-- refresh: the deassert, step 6 (R116) -/
  | refreshDeassert
  /-- a call has failed, and "the block makes no further transport call in this command" (R104) -/
  | stopped
deriving DecidableEq, Repr

/-- What a command returns to the host (30_encoding.md R70). -/
inductive Response where
  /-- `Done` -/
  | done
  /-- `Pixel(hit, val)` -/
  | pixel (hit val : Bit)
  /-- `Dim(n)` -/
  | dim (n : BitVec 16)
  /-- `Fault(code)` -/
  | fault (code : Nat)
deriving DecidableEq, Repr

/-- What the transport answers to one call (R104, R163 b). -/
inductive Answer where
  /-- the call succeeded; `returned` is the byte `transfer_byte` returns, which nothing reads (R102) -/
  | ok (returned : Byte)
  /-- the call failed -/
  | failed
deriving DecidableEq, Repr

/-- What the outside does at one step (R163 a; log 8). -/
inductive HostEvent where
  /-- no command arrives: the block goes on with a transaction in progress, or idles -/
  | quiet
  /-- a command word arrives and is taken as one atomic step (R47, R122) -/
  | command (w : CmdWord)
  /-- a command word arrives; a transaction it starts is taken one transport call a step (R122) -/
  | commandByCalls (w : CmdWord)
  /-- two command words arrive truly at once (R164, U3) -/
  | together (w₁ w₂ : CmdWord)
  /-- RESET (R160), with the unspecified values `rot` and `FB` come up with: byte i of `bytes` at index i -/
  | reset (rot : Rotation) (bytes : List Byte)
deriving DecidableEq, Repr

/-- The framebuffer: (byte index, byte) pairs in one canonical form (Ops.lean), rising indexes, no entry equal to
what an unlisted byte reads as. -/
abbrev Memory := List Host.Cell

/-- The state of the block, and the model's own inputs. -/
structure State where
  /-- the parameters, constant (00_scope.md R6) -/
  cfg : Config
  /-- `FB[0..N-1]` (R28) -/
  fb : Memory
  /-- the rotation state (R24) -/
  rot : Rotation
  /-- the polarity bit (R23, R25) -/
  vcom : Bit
  /-- the transaction state (R26) -/
  sel : Select
  /-- the sticky fault record (R27) -/
  fault : FaultRecord
  /-- index of the buffer byte being sent (R22, R115) -/
  byteIndex : Nat
  /-- line of the previous data byte (R22, R114) -/
  prevLine : Nat
  /-- the encoder's position inside a transaction (R22) -/
  pos : EncoderPos
  /-- the 0-based position of the command's next transport call (R104) -/
  callPos : Nat
  /-- every transport call made since reset, NEWEST FIRST; read oldest first by `State.trace` (R31) -/
  busLog : List BusEvent
  /-- the responses given to the host since reset, oldest first (R70) -/
  responses : List Response
  /-- the model's own: what the outside does, one event a step; exhausted, it is quiet (log 8) -/
  schedule : List HostEvent
  /-- the model's own: the transport's answers, one a call; exhausted, calls succeed (log 6) -/
  answers : List Answer
  /-- the model's own: the counter the free values are applied to (log 7) -/
  draws : Nat
deriving DecidableEq, Repr

/-- The output trace: every transport call made since reset, in order (R31). -/
def State.trace (s : State) : List BusEvent := s.busLog.reverse

/-- Why the machine stops. The block's own faults (R140) are not among these: raising one is a next state, in the
register `fault` (R146). -/
inductive Fault where
  /-- A STUCK STATE, raised by a step on which two commands arrive truly at once with `sel = 0`: "the model gives
  such a host no step" (R164, U3; log 14). Safe. -/
  | concurrentCommands
  /-- Raised by any command in a state no run reaches, a malformed configuration with `fault = None`: such a block
  "has no framebuffer that any rule describes" (R141; log 15). Safe. -/
  | malformedConfig
  /-- Raised by a quiet step in a state no run reaches, the encoder about to send a data byte of an index that
  `FB[0..N-1]` does not have (R28, R44; log 15). Safe. -/
  | noSuchByte
deriving DecidableEq, Repr

/-- Why an instruction has no meaning where it stands. -/
inductive Refusal where
  /-- The arm of an instruction that has no meaning yet. Safe. -/
  | notModelled (mnemonic : String)
  /-- A wire item that is not the next one of the encoder's transaction: it is "recognised by its position in the
  frame" and occurs nowhere else (R60 to R65, R73; log 9). Raised by the five wire items. Safe. -/
  | notNextWireItem
deriving DecidableEq, Repr

/-- The state after RESET of a block with parameters `c`, of which `rot` and `fb` come up with the given values,
unspecified by R160; the inputs from outside go on. DESIGN CHOICE (log 27): a malformed configuration leaves ConfigFault
in `fault` and gives no response, since R70 gives responses to commands and RESET is none (R160). `byteIndex`, `prevLine` and `callPos` are "meaningless until a
REFRESH sets them": DESIGN CHOICE 0 (log 5). -/
def State.afterReset (c : Config) (rot : Rotation) (fb : Memory) (schedule : List HostEvent)
    (answers : List Answer) (draws : Nat) : State :=
  { cfg := c
    fb := fb
    rot := rot
    vcom := c.vcomReset
    sel := .deasserted
    fault := if configOK c then .noFault else .configFault
    byteIndex := 0
    prevLine := 0
    pos := .idle
    callPos := 0
    busLog := []
    responses := []
    schedule := schedule
    answers := answers
    draws := draws }

/-- The machine right after RESET (R160), in the reference configuration; DESIGN CHOICE: `rot` 0° (log 3), nothing
listed in `fb` (log 4), no input pending (logs 6 and 8), `draws` 0 (log 7). -/
def State.reset : State := State.afterReset Config.reference .deg0 [] [] [] 0

end Sys2Proof.Machine
end

