-- ==== Sys2Proof/Machine/Ops.lean ====
section
/-! DEFINITION. The named operations over the framebuffer and the registers: byte reads and writes, responding,
raising a fault (60_exceptions.md R146) and the one return from it, RESET (R147, R160), and the dispatch checks
every command passes (42_device_control.md R130). -/

namespace Sys2Proof.Machine

/-! ## The framebuffer array (20_memory.md) -/

/-- What a byte of `FB` that nothing has written reads as. R160 leaves `FB` after RESET unspecified; DESIGN CHOICE
0xFF, the one uniform content the spec names (log 4); unsafe. -/
def unlistedByte : Byte := 0xFF#8

/-- The blank state of a byte: all bits 1 (R92). -/
def blankByte : Byte := 0xFF#8

/-- `MemRead(addr, 1)` (00_scope.md section 5). -/
def readByte : Memory → Nat → Byte
  | [], _ => unlistedByte
  | (a, b) :: m, addr => if a = addr then b else readByte m addr

/-- A cell in front of a memory, unless it holds what an unlisted byte reads as. -/
def consCell (addr : Nat) (v : Byte) (m : Memory) : Memory :=
  if v = unlistedByte then m else (addr, v) :: m

/-- `MemWrite(addr, 1, v)` (00_scope.md section 5), keeping the canonical form. -/
def writeByte : Memory → Nat → Byte → Memory
  | [], addr, v => consCell addr v []
  | (a, b) :: m, addr, v =>
    if a < addr then (a, b) :: writeByte m addr v
    else if a = addr then consCell addr v m
    else consCell addr v ((a, b) :: m)

/-- The canonical form: indexes strictly rising, no entry equal to what an unlisted byte reads as. -/
def Memory.wf : Memory → Bool
  | [] => true
  | (a, b) :: m => b != unlistedByte && m.all (fun c => decide (a < c.1)) && Memory.wf m

/-- `for idx in 0 .. n-1: MemWrite(idx, 1, 0xFF)` (R92). -/
def fillBlank : Nat → Memory → Memory
  | 0, m => m
  | n + 1, m => writeByte (fillBlank n m) n blankByte

/-- The array that holds the listed bytes from index `addr` on, as far as it has `n` bytes left. -/
def loadBytes : Nat → List Byte → Nat → Memory → Memory
  | 0, _, _, m => m
  | _ + 1, [], _, m => m
  | n + 1, b :: bs, addr, m => loadBytes n bs (addr + 1) (writeByte m addr b)

/-! ## Responses and faults -/

/-- `respond v` (R70). -/
def respond (r : Response) (s : State) : State := { s with responses := s.responses ++ [r] }

/-- The codes of R27 and R140; code 1 is never stored. -/
def faultCode : FaultRecord → Nat
  | .noFault => 0
  | .configFault => 2
  | .transportFault _ => 3
  | .txnOverlap _ => 4
  | .illegalCommand _ => 5

/-- The fault register with `new` raised over `old`: "Once different from `None` it never changes until RESET" (R27,
R147). -/
def stickyFault (old new : FaultRecord) : FaultRecord := if old = .noFault then new else old

/-- TAKING AN EXCEPTION, `raise F(info)`: "`fault <- F` (with `info` kept beside it), the command in progress stops
at that point, and the host receives `Fault(code of F)`"; nothing else is saved and control goes nowhere (R146). A
fault already recorded stays (R27). -/
def raiseFault (f : FaultRecord) (s : State) : State :=
  respond (.fault (faultCode f)) { s with fault := stickyFault s.fault f }

/-- "every later command responds `Fault(fault)` and changes nothing" (R147). -/
def respondSticky (s : State) : State := respond (.fault (faultCode s.fault)) s

/-- THE RETURN FROM A FAULT: there is none but RESET (R147). RESET puts every register at its value of R160; `rot`
and `bytes` are what the unspecified `rot` and `FB` come up with. It makes no transport call. -/
def takeReset (rot : Rotation) (bytes : List Byte) (s : State) : State :=
  State.afterReset s.cfg rot (loadBytes (bufferBytes s.cfg) bytes 0 []) s.schedule s.answers s.draws

/-! ## Dispatch (R130) -/

/-- The dispatch checks of R130 for a legal command with operation code `op`, then the command's own rule `body`:
1, the sticky fault; 3, `sel = 1` raises TxnOverlap; 4, execute. (Check 2 is the decoder's, in Fetch.lean.) The
malformed configuration with no fault is a state no run reaches (log 15). -/
def dispatch (op : BitVec 4) (body : State → State) (s : State) : Host.Outcome State Fault Refusal :=
  if s.fault ≠ .noFault then .next (respondSticky s)
  else if configOK s.cfg = false then .fault .malformedConfig
  else if s.sel = .asserted then .next (raiseFault (.txnOverlap op) s)
  else .next (body s)

/-- Checks 1 and 2 of R130 for a word that matches no row: the sticky fault, then IllegalCommand (R144). -/
def illegalWord (w : CmdWord) (s : State) : State :=
  if s.fault ≠ .noFault then respondSticky s else raiseFault (.illegalCommand w) s

end Sys2Proof.Machine
end

