-- ==== Sys2Proof/Machine/Framebuffer.lean ====
section
/-! DEFINITION. The framebuffer commands of 40_framebuffer.md: SET_PIXEL, GET_PIXEL, CLEAR_BUFFER, SET_ROTATION. -/

namespace Sys2Proof.Machine

/-- `FbBit(x', y')` (R86). -/
def fbBit (s : State) (p : Int × Int) : Bit := bitOf (readByte s.fb (byteIndexOf s.cfg p)) (bitPositionOf p)

/-- `FbBit(x', y') <- v`: one read-modify-write of one byte (R46, R88). -/
def setFbBit (v : Bit) (p : Int × Int) (s : State) : State :=
  { s with
    fb := writeByte s.fb (byteIndexOf s.cfg p)
      (putBit (readByte s.fb (byteIndexOf s.cfg p)) (bitPositionOf p) v) }

/-- Every byte of `FB` becomes 0xFF (R92). -/
def blankBuffer (s : State) : State := { s with fb := fillBlank (bufferBytes s.cfg) s.fb }

/-- The rule of SET_PIXEL (R88): transform with the current `rot`, clip silently, set or clear the one bit. -/
def setPixelRule (val : Bit) (x y : Coord) (s : State) : State :=
  let p := nativeOf s.cfg s.rot x y
  respond .done (if InRange s.cfg p then setFbBit val p s else s)

/-- SET_PIXEL. -/
def execSetPixel (val : Bit) (x y : Coord) (s : State) : Host.Outcome State Fault Refusal :=
  dispatch 0x1#4 (setPixelRule val x y) s

/-- The rule of GET_PIXEL (R90): `Pixel(1, FbBit(x', y'))` in range, `Pixel(0, 0)` out of range (log 18). -/
def getPixelRule (x y : Coord) (s : State) : State :=
  let p := nativeOf s.cfg s.rot x y
  respond (if InRange s.cfg p then .pixel 1#1 (fbBit s p) else .pixel 0#1 0#1) s

/-- GET_PIXEL. -/
def execGetPixel (x y : Coord) (s : State) : Host.Outcome State Fault Refusal :=
  dispatch 0x2#4 (getPixelRule x y) s

/-- The rule of CLEAR_BUFFER (R92). -/
def clearBufferRule (s : State) : State := respond .done (blankBuffer s)

/-- CLEAR_BUFFER. -/
def execClearBuffer (s : State) : Host.Outcome State Fault Refusal := dispatch 0x3#4 clearBufferRule s

/-- The rule of SET_ROTATION (R93): `rot <- r`; no bit of `FB` moves. -/
def setRotationRule (r : Rotation) (s : State) : State := respond .done { s with rot := r }

/-- SET_ROTATION. -/
def execSetRotation (r : Rotation) (s : State) : Host.Outcome State Fault Refusal :=
  dispatch 0x6#4 (setRotationRule r) s

end Sys2Proof.Machine
end

