-- ==== Sys2Proof/Machine/Device.lean ====
section
/-! DEFINITION. The device commands of 42_device_control.md: INIT, GET_WIDTH, GET_HEIGHT. -/

namespace Sys2Proof.Machine

/-- The rule of INIT (R132): `FB` all 0xFF, `rot <- r`; `vcom` and `sel` untouched, no transport call. -/
def initRule (r : Rotation) (s : State) : State := respond .done { blankBuffer s with rot := r }

/-- INIT. -/
def execInit (r : Rotation) (s : State) : Host.Outcome State Fault Refusal := dispatch 0x0#4 (initRule r) s

/-- The rule of GET_WIDTH (R133): the logical width (log 19). -/
def getWidthRule (s : State) : State := respond (.dim (logicalWidth s.cfg s.rot)) s

/-- GET_WIDTH. -/
def execGetWidth (s : State) : Host.Outcome State Fault Refusal := dispatch 0x7#4 getWidthRule s

/-- The rule of GET_HEIGHT (R134): the logical height (log 19). -/
def getHeightRule (s : State) : State := respond (.dim (logicalHeight s.cfg s.rot)) s

/-- GET_HEIGHT. -/
def execGetHeight (s : State) : Host.Outcome State Fault Refusal := dispatch 0x8#4 getHeightRule s

end Sys2Proof.Machine
end

