-- ==== Sys2Proof/Machine/Flags.lean ====
section
/-! DEFINITION. The block's one flag, the polarity bit `vcom` (10_state.md R23): what flips it. Where it stands in
a command byte (R62) is `vcomBit` of Decode.lean. There are no condition codes, carry or overflow flags (R23). -/

namespace Sys2Proof.Machine

/-- `vcom ^ 1` (R23). -/
def flipPolarity (v : Bit) : Bit := v ^^^ 1#1

end Sys2Proof.Machine
end

