-- ==== Sys2Proof/Machine/Encoder.lean ====
section
/-! DEFINITION. The display protocol encoder (41_protocol_encoder.md): the transport calls (R100 to R104) and the
transaction machine, one transport call at a time in the order of R108 and R112 (R122). CLEAR_DISPLAY and REFRESH
as atomic steps run it to its end (Protocol.lean); taken call by call, a step makes one call of it (Wire.lean,
Fetch.lean). -/

namespace Sys2Proof.Machine

/-! ## Transport calls -/

/-- What the transport answers to the next call: the next of `answers`; once they are exhausted, success with a
byte that nothing constrains (logs 6 and 7). -/
def nextAnswer (s : State) : Answer :=
  match s.answers with
  | [] => .ok (Config.returnedByte s.draws)
  | a :: _ => a

/-- The call has been answered: its answer is used up. -/
def useAnswer (s : State) : State := { s with answers := s.answers.tail, draws := s.draws + 1 }

/-- The event of a call that succeeded is appended to the trace (R100). -/
def recordCall (e : BusEvent) (s : State) : State :=
  { s with busLog := e :: s.busLog, callPos := s.callPos + 1 }

/-- A call that failed: its event is not appended, every register keeps its value, the command makes no further call,
and TransportFault(k) is raised (R104): recorded unless a fault is recorded already (R27), the host receiving its code 3
in either case (R146; DESIGN CHOICE, log 28: after an illegal word in mid-transaction; unsafe). -/
def failCall (s : State) : State :=
  raiseFault (.transportFault s.callPos) { useAnswer s with pos := .stopped }

/-- `emit e`: one transport call. On success the event is appended and `onSuccess` follows (R100); the byte the call
returns is discarded (R102). -/
def emit (e : BusEvent) (onSuccess : State → State) (s : State) : State :=
  match nextAnswer s with
  | .ok _ => onSuccess (recordCall e (useAnswer s))
  | .failed => failCall s

/-! ## The transaction machine -/

/-- `currentLine = (byteIndex + 1) / BPL + 1` (R115). -/
def currentLine (s : State) : Nat := (s.byteIndex + 1) / bytesPerLine s.cfg + 1

/-- The head of the loop of R115: byte `i` is next if the buffer has one, else the final trailer (R116). -/
def loopHead (i : Nat) (s : State) : State :=
  { s with byteIndex := i, pos := if i < bufferBytes s.cfg then .data else .finalTrailer }

/-- `prevLine <- currentLine`, then the next turn of the loop (R115). -/
def nextTurn (s : State) : State := loopHead (s.byteIndex + 1) { s with prevLine := currentLine s }

/-- What follows a `Tx` call that succeeded: the register updates R108 and R112 put after it, and the position of
the next call. -/
def afterTx (s : State) : State :=
  match s.pos with
  | .clearCommand => { s with pos := .clearTrailer }
  | .clearTrailer => { s with vcom := flipPolarity s.vcom, pos := .clearDeassert }
  | .refreshCommand => { s with vcom := flipPolarity s.vcom, pos := .firstAddress }
  | .firstAddress => loopHead 0 { s with prevLine := 1 }
  | .data =>
    if currentLine s ≠ s.prevLine then { s with pos := .lineTrailer }
    else loopHead (s.byteIndex + 1) s
  | .lineTrailer =>
    if currentLine s ≤ nativeHeight s.cfg then { s with pos := .lineAddress } else nextTurn s
  | .lineAddress => nextTurn s
  | .finalTrailer => { s with pos := .refreshDeassert }
  | .idle | .clearDeassert | .refreshDeassert | .stopped => s

/-- `emit Tx(b)` (R102) at the encoder's position. -/
def sendTx (b : Byte) (s : State) : State := emit (.tx b) afterTx s

/-- The line address byte of line `l` (R63); `l <= 255` by R8. -/
def lineByte (l : Nat) : Byte := BitVec.ofNat 8 l

/-- Call k = 0: `emit AssertSelect`; on success `sel <- 1` (R101) and the command byte at `p` is next. -/
def openTransaction (p : EncoderPos) (s : State) : State :=
  emit .assertSelect (fun s => { s with sel := .asserted, pos := p }) { s with callPos := 0 }

/-- The start of CLEAR_DISPLAY (R108, k = 0). -/
def startClear (s : State) : State := openTransaction .clearCommand s

/-- The start of REFRESH (R113, step 1). -/
def startRefresh (s : State) : State := openTransaction .refreshCommand s

/-- `emit DeassertSelect`; on success `sel <- 0` (R103), `finish`, and `respond Done`. -/
def closeTransaction (finish : State → State) (s : State) : State :=
  emit .deassertSelect (fun s => respond .done (finish { s with sel := .deasserted, pos := .idle })) s

/-- The end of CLEAR_DISPLAY (R108, k = 3): the buffer is filled only if `CLEAR_DISPLAY_CLEARS_BUFFER`. -/
def endClear (s : State) : State :=
  closeTransaction (fun s => if s.cfg.clearDisplayClearsBuffer then blankBuffer s else s) s

/-- The end of REFRESH (R116, step 6). -/
def endRefresh (s : State) : State := closeTransaction id s

/-- The next transport call of the transaction in progress (R108, R112). -/
def encoderStep (s : State) : State :=
  match s.pos with
  | .idle | .stopped => s
  | .clearCommand => sendTx (clearCommandByte s.vcom) s
  | .clearTrailer => sendTx trailerByte s
  | .clearDeassert => endClear s
  | .refreshCommand => sendTx (writeCommandByte s.vcom) s
  | .firstAddress => sendTx (lineByte 1) s
  | .data => sendTx (readByte s.fb s.byteIndex) s
  | .lineTrailer => sendTx trailerByte s
  | .lineAddress => sendTx (lineByte (currentLine s)) s
  | .finalTrailer => sendTx trailerByte s
  | .refreshDeassert => endRefresh s

/-- At most `n` further transport calls; a failed call is the last (R104). -/
def runCalls : Nat → State → State
  | 0, s => s
  | n + 1, s => if s.fault = .noFault then runCalls n (encoderStep s) else s

/-- Does a transaction in progress go on when nothing arrives? With `sel = 1` and no fault it does (R122); not after
a failed call, "the only thing that ends a transaction early" (R121, R104), nor after TxnOverlap, when it "is not
continued by any rule" (R143). DEDUCED (log 26): it goes on after IllegalCommand, since "the host cannot make it stop"
(R121) and an illegal word "has no effect on" it (R144); unsafe. -/
def transactionRuns (s : State) : Bool :=
  match s.fault, s.sel with
  | .noFault, .asserted | .illegalCommand _, .asserted => s.pos != .stopped
  | _, _ => false

/-! ## The wire item at the encoder's position -/

/-- The wire item the encoder is about to send (R60 to R65, R73); none where its next call is the deassert, where no
transaction is in progress, or where `FB` has no byte `byteIndex`. -/
def wireItemAt (s : State) : Option Instr :=
  match s.pos with
  | .clearCommand => some (.wireCmdClear s.vcom)
  | .clearTrailer => some .wireTrailer
  | .refreshCommand => some (.wireCmdWrite s.vcom)
  | .firstAddress => some (.wireLineAddr (lineByte 1))
  | .data => if s.byteIndex < bufferBytes s.cfg then some (.wireData (readByte s.fb s.byteIndex)) else none
  | .lineTrailer => some .wireTrailer
  | .lineAddress => some (.wireLineAddr (lineByte (currentLine s)))
  | .finalTrailer => some .wireTrailer
  | .idle | .clearDeassert | .refreshDeassert | .stopped => none

/-- The meaning of a wire item `i` with byte `b`: the transport call `emit Tx(b)` of the transaction in progress,
where that goes on and the encoder is about to send exactly this item; it "occurs nowhere else" (R60, R61; log 9). -/
def sendItem (i : Instr) (b : Byte) (s : State) : Host.Outcome State Fault Refusal :=
  if transactionRuns s = true ∧ wireItemAt s = some i then .next (sendTx b s)
  else .refused .notNextWireItem

end Sys2Proof.Machine
end

