-- ==== Sys2Proof/Machine/Protocol.lean ====
section
/-! DEFINITION. The encoder commands of 41_protocol_encoder.md as one atomic step each (R122, 20_memory.md R47):
CLEAR_DISPLAY and REFRESH. -/

namespace Sys2Proof.Machine

/-- The rule of CLEAR_DISPLAY (R108): the call k = 0, then the calls k = 1, 2, 3. -/
def clearDisplayRule (s : State) : State := runCalls 3 (startClear s)

/-- CLEAR_DISPLAY. -/
def execClearDisplay (s : State) : Host.Outcome State Fault Refusal := dispatch 0x4#4 clearDisplayRule s

/-- The rule of REFRESH (R112): the assert, the `2 + H*(BPL + 2)` bytes of R118, the deassert. -/
def refreshRule (s : State) : State := runCalls (refreshTxCount s.cfg + 1) (startRefresh s)

/-- REFRESH. -/
def execRefresh (s : State) : Host.Outcome State Fault Refusal := dispatch 0x5#4 refreshRule s

end Sys2Proof.Machine
end

