-- ==== Sys2Proof/Machine/Wire.lean ====
section
/-! DEFINITION. The five wire items (30_encoding.md R60 to R65): each is the transport call that sends its byte, one
step of a transaction taken call by call (41_protocol_encoder.md R122). -/

namespace Sys2Proof.Machine

/-- WIRE_CMD_WRITE (R60, R113): the first byte of a refresh frame; `vcom` flips right after it. -/
def execWireCmdWrite (v : Bit) (s : State) : Host.Outcome State Fault Refusal :=
  sendItem (.wireCmdWrite v) (writeCommandByte v) s

/-- WIRE_CMD_CLEAR (R61, R108): the first byte of a clear frame. -/
def execWireCmdClear (v : Bit) (s : State) : Host.Outcome State Fault Refusal :=
  sendItem (.wireCmdClear v) (clearCommandByte v) s

/-- WIRE_LINE_ADDR (R63, R114, R115): the address byte of a line. -/
def execWireLineAddr (l : Byte) (s : State) : Host.Outcome State Fault Refusal :=
  sendItem (.wireLineAddr l) l s

/-- WIRE_DATA (R65, R115): a buffer byte, verbatim. -/
def execWireData (d : Byte) (s : State) : Host.Outcome State Fault Refusal :=
  sendItem (.wireData d) d s

/-- WIRE_TRAILER (R64): the trailer of a clear frame, of a line, or of a refresh frame. -/
def execWireTrailer (s : State) : Host.Outcome State Fault Refusal :=
  sendItem .wireTrailer trailerByte s

end Sys2Proof.Machine
end

