-- ==== Sys2Proof/Machine/Dispatch.lean ====
section
/-! DEFINITION. The one match over the instructions: each arm calls its instruction's meaning. -/

namespace Sys2Proof.Machine

def exec (i : Instr) (s : State) : Host.Outcome State Fault Refusal :=
  match i with
  -- the host commands (30_encoding.md R66)
  | .init r => Sys2Proof.Machine.execInit r s
  | .setPixel val x y => Sys2Proof.Machine.execSetPixel val x y s
  | .getPixel x y => Sys2Proof.Machine.execGetPixel x y s
  | .clearBuffer => Sys2Proof.Machine.execClearBuffer s
  | .clearDisplay => Sys2Proof.Machine.execClearDisplay s
  | .refresh => Sys2Proof.Machine.execRefresh s
  | .setRotation r => Sys2Proof.Machine.execSetRotation r s
  | .getWidth => Sys2Proof.Machine.execGetWidth s
  | .getHeight => Sys2Proof.Machine.execGetHeight s
  -- the wire items (30_encoding.md R60 to R65)
  | .wireCmdWrite v => Sys2Proof.Machine.execWireCmdWrite v s
  | .wireCmdClear v => Sys2Proof.Machine.execWireCmdClear v s
  | .wireLineAddr l => Sys2Proof.Machine.execWireLineAddr l s
  | .wireData d => Sys2Proof.Machine.execWireData d s
  | .wireTrailer => Sys2Proof.Machine.execWireTrailer s

end Sys2Proof.Machine
end

