-- ==== Sys2Proof/Machine/Fetch.lean ====
section
/-! DEFINITION. What one step does with what the outside does at it (70_reset_and_hazards.md R163): a command word
is decoded and dispatched (42_device_control.md R130), a quiet step makes the next call of a transaction in progress
or idles, RESET resets. The block fetches nothing (10_state.md R22): the host presents its words. -/

namespace Sys2Proof.Machine

/-- A command word arrives and is taken as one atomic step (R130, R47). -/
def present (w : CmdWord) (s : State) : Host.Outcome State Fault Refusal :=
  match decodeCommand w with
  | .error _ => .next (illegalWord w s)
  | .ok i => exec i s

/-- A command taken one transport call a step: of the two that make a transaction, the call k = 0 (R108, R113); the
others make none and are as in `exec` (R122). -/
def execByCalls (i : Instr) (s : State) : Host.Outcome State Fault Refusal :=
  match i with
  | .clearDisplay => dispatch 0x4#4 startClear s
  | .refresh => dispatch 0x5#4 startRefresh s
  | .init _ | .setPixel _ _ _ | .getPixel _ _ | .clearBuffer | .setRotation _ | .getWidth | .getHeight
  | .wireCmdWrite _ | .wireCmdClear _ | .wireLineAddr _ | .wireData _ | .wireTrailer => exec i s

/-- A command word arrives; a transaction it starts is taken one transport call a step, and this step makes the
call k = 0 (R122). -/
def presentByCalls (w : CmdWord) (s : State) : Host.Outcome State Fault Refusal :=
  match decodeCommand w with
  | .error _ => .next (illegalWord w s)
  | .ok i => execByCalls i s

/-- Two command words arrive truly at once. With no fault and `sel = 0`: no step (R164, U3; log 14). Else each is
dispatched, the second finding the fault the first met or raised (R130, R147). -/
def presentTogether (w₁ w₂ : CmdWord) (s : State) : Host.Outcome State Fault Refusal :=
  if s.fault = .noFault ∧ s.sel = .deasserted then .fault .concurrentCommands
  else
    match present w₁ s with
    | .next t => present w₂ t
    | .fault f => .fault f
    | .refused r => .refused r

/-- The free value of log 17: after TxnOverlap the interrupted transaction's "further transport calls, if any, are
unspecified" (R143, U3). DESIGN CHOICE (log 17): that transaction is never answered, neither at the overlap nor later,
and no register changes but the trace and the counter `draws`; unsafe. -/
def unspecifiedCalls (s : State) : State :=
  { s with busLog := (Config.callsAfterOverlap s.draws).reverse ++ s.busLog, draws := s.draws + 1 }

/-- Was a transaction in progress interrupted by an overlapping command (R143)? An illegal word interrupts none
(log 26). -/
def interrupted (s : State) : Bool :=
  match s.fault, s.sel with
  | .txnOverlap _, .asserted => true
  | _, _ => false

/-- Nothing arrives. With a transaction in progress that goes on, its next transport call (R122, R121): the wire item at the encoder's
position, or the deassert. A transaction an overlap interrupted: `unspecifiedCalls`. Else the block "is idle between
commands and keeps all its state while idle" (60_exceptions.md section 10). -/
def quietStep (s : State) : Host.Outcome State Fault Refusal :=
  if transactionRuns s then
    match wireItemAt s with
    | some i => exec i s
    | none =>
      match s.pos with
      | .clearDeassert => .next (endClear s)
      | .refreshDeassert => .next (endRefresh s)
      | .data => .fault .noSuchByte
      | _ => .next s
  else if interrupted s then .next (unspecifiedCalls s)
  else .next s

/-- One step: what the outside does at it (R163); an exhausted schedule is quiet. -/
def react : List HostEvent → State → Host.Outcome State Fault Refusal
  | [], s => quietStep s
  | .quiet :: rest, s => quietStep { s with schedule := rest }
  | .command w :: rest, s => present w { s with schedule := rest }
  | .commandByCalls w :: rest, s => presentByCalls w { s with schedule := rest }
  | .together w₁ w₂ :: rest, s => presentTogether w₁ w₂ { s with schedule := rest }
  | .reset rot bytes :: rest, s => .next (takeReset rot bytes { s with schedule := rest })

/-- The encoder of an unfaulted block at position `p` of a transaction, this step quiet. -/
def atPosition (p : EncoderPos) (s : State) : State :=
  { s with sel := .asserted, fault := .noFault, pos := p, schedule := .quiet :: s.schedule }

/-- The state in which the encoder is about to send the wire item `i` (log 21). -/
def placeItem (i : Instr) (s : State) : State :=
  match i with
  | .wireCmdWrite v => atPosition .refreshCommand { s with vcom := v }
  | .wireCmdClear v => atPosition .clearCommand { s with vcom := v }
  | .wireLineAddr l =>
    if l = 1#8 then atPosition .firstAddress s
    else atPosition .lineAddress { s with byteIndex := (l.toNat - 1) * bytesPerLine s.cfg - 1 }
  | .wireData d => atPosition .data { s with byteIndex := 0, fb := writeByte s.fb 0 d }
  | .wireTrailer => atPosition .finalTrailer s
  | .init _ | .setPixel _ _ _ | .getPixel _ _ | .clearBuffer | .clearDisplay | .refresh | .setRotation _
  | .getWidth | .getHeight => s

/-- A row's bits stored where the next step takes them: a command word arrives at the next step; the encoder is
about to send a wire byte (log 21). -/
def placeWord (s : State) (nbits w : Nat) : State :=
  if nbits = 40 then { s with schedule := .command (BitVec.ofNat 40 w) :: s.schedule }
  else if nbits = 8 then placeItem (wireByValue (BitVec.ofNat 8 w)) s
  else s

end Sys2Proof.Machine
end

