-- ==== Sys2Proof/Machine/Step.lean ====
section
/-! DEFINITION. One step of the block, and the state with an instruction placed for the next step. -/

namespace Sys2Proof.Machine

/-- One step: what the outside does at it is the head of `schedule` (log 8). -/
def step (s : State) : Host.Outcome State Fault Refusal := react s.schedule s

/-- `s` with the instruction whose bits are `w` placed so that the very next step runs it (logs 8 and 21). -/
def State.withFetchWord (s : State) (nbits w : Nat) : State := placeWord s nbits w

end Sys2Proof.Machine
end

