-- ==== Sys2Proof/Safety.lean ====
section
/-! DEFINITION. The terms the statements use: the premises on a state (no fault, idle, a legal configuration, a
transport that answers), what a frame is in closed form (30_encoding.md R73, 41_protocol_encoder.md R117), and the
invariants every step keeps (10_state.md R32). -/

namespace Sys2Proof.Machine

/-! ## Premises -/

/-- The block can execute a command: `fault = None`, a legal configuration, `sel = 0` (R130, R147, R162). -/
def Ready (s : State) : Prop := s.fault = .noFault ∧ configOK s.cfg = true ∧ s.sel = .deasserted

/-- The next `n` transport calls succeed (R104). -/
def CallsSucceed (n : Nat) (s : State) : Prop := ∀ a ∈ s.answers.take n, a ≠ .failed

/-- The next `k` transport calls succeed and the one after them fails (R104). -/
def FailsAt (k : Nat) (s : State) : Prop := CallsSucceed k s ∧ s.answers[k]? = some .failed

/-- A transaction is in progress, and neither a failed call nor an overlap has ended it: `sel = 1`, with no fault, or
with the IllegalCommand of a word that arrived meanwhile, and no call has failed (R104, R121, R143, R144; log 26). -/
def MidTransaction (s : State) : Prop :=
  (s.fault = .noFault ∨ ∃ w, s.fault = .illegalCommand w) ∧ s.sel = .asserted ∧ s.pos ≠ .stopped

/-- The end state of a run is good: `fault = None` and `sel = 0` (R172). -/
def GoodEnd (s : State) : Prop := s.fault = .noFault ∧ s.sel = .deasserted

/-- The (mask, match) pairs of the table of R67, in its order. -/
def commandRows : List (CmdWord × CmdWord) :=
  [(0xF3FFFFFFFF#40, 0x0000000000#40), (0xFE00000000#40, 0x1000000000#40), (0xFF00000000#40, 0x2000000000#40),
   (0xFFFFFFFFFF#40, 0x3000000000#40), (0xFFFFFFFFFF#40, 0x4000000000#40), (0xFFFFFFFFFF#40, 0x5000000000#40),
   (0xF3FFFFFFFF#40, 0x6000000000#40), (0xFFFFFFFFFF#40, 0x7000000000#40), (0xFFFFFFFFFF#40, 0x8000000000#40)]

/-- "`w` matches no row" (R69, R130). -/
def MatchesNoRow (w : CmdWord) : Prop := ∀ row ∈ commandRows, w &&& row.1 ≠ row.2

/-- The two commands that make a transaction (R105): "only CLEAR_DISPLAY and REFRESH leave idle". -/
def startsTransaction : Instr → Bool
  | .clearDisplay | .refresh => true
  | .init _ | .setPixel _ _ _ | .getPixel _ _ | .clearBuffer | .setRotation _ | .getWidth | .getHeight
  | .wireCmdWrite _ | .wireCmdClear _ | .wireLineAddr _ | .wireData _ | .wireTrailer => false

/-- What arrives at the next step is a command word, to be taken in either form (R122). -/
def Arrives (w : CmdWord) (rest : List HostEvent) (s : State) : Prop :=
  s.schedule = .command w :: rest ∨ s.schedule = .commandByCalls w :: rest

/-! ## Frames in closed form -/

/-- A clear frame with its select calls (R73, R108). -/
def clearFrame (v : Bit) : List BusEvent :=
  [.assertSelect, .tx (clearCommandByte v), .tx trailerByte, .deassertSelect]

/-- What a refresh sends for native line `y'`: the address `y' + 1`, the `BPL` bytes of the line, a trailer (R117). -/
def lineBytes (c : Config) (m : Memory) (y : Nat) : List Byte :=
  lineByte (y + 1) :: (List.range (bytesPerLine c)).map (fun j => readByte m (y * bytesPerLine c + j))
    ++ [trailerByte]

/-- The bytes of a refresh: the command byte, then every line in order, then the final trailer (R117). -/
def refreshBytes (c : Config) (v : Bit) (m : Memory) : List Byte :=
  writeCommandByte v :: (List.range (nativeHeight c)).flatMap (lineBytes c m) ++ [trailerByte]

/-- A refresh frame with its select calls (R73, R117). -/
def refreshFrame (c : Config) (v : Bit) (m : Memory) : List BusEvent :=
  .assertSelect :: (refreshBytes c v m).map .tx ++ [.deassertSelect]

/-- A list of complete transactions (R172). -/
def WholeTransactions (c : Config) (tr : List BusEvent) : Prop :=
  ∃ frames : List (List BusEvent), tr = frames.flatten ∧
    ∀ f ∈ frames, (∃ v, f = clearFrame v) ∨ ∃ v m, f = refreshFrame c v m

/-! ## Invariants -/

/-- The framebuffer is in its canonical form and holds no byte outside `FB[0..N-1]` (R28). -/
def BufferInv (s : State) : Prop :=
  Memory.wf s.fb = true ∧ ∀ cell ∈ s.fb, cell.1 < bufferBytes s.cfg

/-- A malformed configuration is faulted (R141). -/
def ConfigInv (s : State) : Prop := configOK s.cfg = false → s.fault ≠ .noFault

/-- The encoder's position agrees with `sel` (after a failed call: with `fault`), with the loop variables and with the number of calls made, `callPos`:
`byteIndex` is in the line whose address was sent last, `prevLine`, and `callPos` counts the calls of R112. -/
def EncoderInv (s : State) : Prop :=
  match s.pos with
  | .idle => s.sel = .deasserted
  | .clearCommand => s.sel = .asserted ∧ s.callPos = 1
  | .clearTrailer => s.sel = .asserted ∧ s.callPos = 2
  | .clearDeassert => s.sel = .asserted ∧ s.callPos = 3
  | .refreshCommand => s.sel = .asserted ∧ s.callPos = 1
  | .firstAddress => s.sel = .asserted ∧ s.callPos = 2
  | .data => s.sel = .asserted ∧ ∃ y j, y < nativeHeight s.cfg ∧ j < bytesPerLine s.cfg ∧
      s.byteIndex = y * bytesPerLine s.cfg + j ∧ s.prevLine = y + 1 ∧
      s.callPos = 3 + y * (bytesPerLine s.cfg + 2) + j
  | .lineTrailer => s.sel = .asserted ∧ ∃ y, y < nativeHeight s.cfg ∧
      s.byteIndex + 1 = (y + 1) * bytesPerLine s.cfg ∧ s.prevLine = y + 1 ∧
      s.callPos = 3 + y * (bytesPerLine s.cfg + 2) + bytesPerLine s.cfg
  | .lineAddress => s.sel = .asserted ∧ ∃ y, y + 1 < nativeHeight s.cfg ∧
      s.byteIndex + 1 = (y + 1) * bytesPerLine s.cfg ∧ s.prevLine = y + 1 ∧
      s.callPos = 2 + (y + 1) * (bytesPerLine s.cfg + 2)
  | .finalTrailer => s.sel = .asserted ∧ s.byteIndex = bufferBytes s.cfg ∧
      s.prevLine = nativeHeight s.cfg + 1 ∧ s.callPos = 2 + nativeHeight s.cfg * (bytesPerLine s.cfg + 2)
  | .refreshDeassert => s.sel = .asserted ∧ s.byteIndex = bufferBytes s.cfg ∧
      s.prevLine = nativeHeight s.cfg + 1 ∧ s.callPos = 3 + nativeHeight s.cfg * (bytesPerLine s.cfg + 2)
  | .stopped => s.fault ≠ .noFault

/-- What holds in every reachable state. -/
structure Inv (s : State) : Prop where
  buffer : BufferInv s
  config : ConfigInv s
  encoder : EncoderInv s
  active : s.sel = .asserted → configOK s.cfg = true

/-- Has the transaction in progress flipped `vcom` already (R108, R113)? -/
def flippedAt : EncoderPos → Bool
  | .idle | .clearCommand | .clearTrailer | .refreshCommand | .stopped => false
  | .clearDeassert | .firstAddress | .data | .lineTrailer | .lineAddress | .finalTrailer | .refreshDeassert => true

/-- The number of completed transactions since reset: the deasserts in the trace. -/
def completed (s : State) : Nat := s.trace.count .deassertSelect

/-- "The number of completed transactions since reset, taken mod 2, equals `vcom ^ VCOM_RESET`" (R32), and inside a
transaction the flip is counted from the point where it stands. -/
def PolarityInv (s : State) : Prop :=
  s.fault = .noFault →
    s.vcom = s.cfg.vcomReset ^^^ BitVec.ofNat 1 (completed s) ^^^ (if flippedAt s.pos then 1#1 else 0#1)

/-- The polarity the command byte of the transaction in progress carries: `vcom` before the flip (R60, R61). -/
def frameVcom (s : State) : Bit := if flippedAt s.pos then flipPolarity s.vcom else s.vcom

/-- The frame the transaction in progress is sending. -/
def currentFrame (s : State) : List BusEvent :=
  match s.pos with
  | .idle | .stopped => []
  | .clearCommand | .clearTrailer | .clearDeassert => clearFrame (frameVcom s)
  | .refreshCommand | .firstAddress | .data | .lineTrailer | .lineAddress | .finalTrailer | .refreshDeassert =>
    refreshFrame s.cfg (frameVcom s) s.fb

/-- With `fault = None` the trace is a concatenation of complete transactions (R172), followed, inside a
transaction, by as much of its frame as it has sent. -/
def TraceInv (s : State) : Prop :=
  s.fault = .noFault →
    ∃ whole, WholeTransactions s.cfg whole ∧ s.trace = whole ++ (currentFrame s).take s.callPos

end Sys2Proof.Machine
end

