-- ==== Sys2Proof/Certificates/Slice0/Obligations.lean ====
section
/-! DEFINITION. The statements for the provers, each from a rule of spec/. `{ t with f := s.f, … } = s` says that `t`
differs from `s` in the named fields alone. Where a clause rests on a decision or inference the spec marks as its
own (92_eei_decisions.md, "[derived: …]"), the docstring names it and the basis is 'derived'. -/

open Sys2Proof Sys2Proof.Machine

/-! ## RESET and the invariants -/

/-- RESET leaves the values of R160 in a block with any parameters: `rot` and `FB` come up with any values (here those
the event carries), everything else as stated, and no transport call is made (its answers are not used up). The
values for `vcom`, `rot` and `FB` are the spec's decision D11; clearing `responses` with the trace is the model's
(log 16). -/
def Obligations.ResetEventLeavesTheResetValues : Prop :=
  ∀ (s : State) (rot : Rotation) (bytes : List Byte) (rest : List HostEvent),
    s.schedule = .reset rot bytes :: rest →
    ∃ t, step s = .next t ∧
      t.fault = (if configOK s.cfg then .noFault else .configFault) ∧
      t.sel = .deasserted ∧ t.vcom = s.cfg.vcomReset ∧ t.trace = [] ∧ t.rot = rot ∧
      (∀ a, a < bufferBytes s.cfg → a < bytes.length → some (readByte t.fb a) = bytes[a]?) ∧
      t.cfg = s.cfg ∧ t.answers = s.answers ∧ t.schedule = rest

/-- The state right after reset meets the three invariants the other statements use as premises. -/
def Obligations.ResetStateMeetsTheInvariants : Prop :=
  Inv State.reset ∧ PolarityInv State.reset ∧ TraceInv State.reset

/-- Every step keeps the invariant: the buffer in its canonical form inside `0..N-1`, a malformed configuration
faulted, the encoder's position in agreement with `sel`, the loop variables and the number of calls made. From
10_state.md section 9; the encoder's part is the model's reading of R22 (log 11), and that it still holds after an
overlap interrupted a transaction rests on the model's choice that no register changes then (log 17). -/
def Obligations.StepKeepsTheStateInvariant : Prop :=
  ∀ s t : State, Inv s → step s = .next t → Inv t

/-- Every step keeps the polarity parity of 10_state.md section 9 (marked there as derived): with no fault, `vcom` is
`VCOM_RESET` flipped once for every completed transaction, and once more inside a transaction past its flip. -/
def Obligations.StepKeepsThePolarityParity : Prop :=
  ∀ s t : State, Inv s → PolarityInv s → step s = .next t → PolarityInv t

/-- Every step keeps the form of the trace: with no fault it is a concatenation of complete transactions, followed
inside a transaction by the part of its frame already sent (70_reset_and_hazards.md section 4, decision D27). -/
def Obligations.StepKeepsTheTraceWholeTransactions : Prop :=
  ∀ s t : State, Inv s → TraceInv s → step s = .next t → TraceInv t

/-- In a state that meets the invariant every step answers a next state, except where two commands arrive truly at
once at an idle, unfaulted block. -/
def Obligations.StepAnswersUnlessTwoCommandsAtOnce : Prop :=
  ∀ s : State, Inv s →
    (∃ t, step s = .next t) ∨
    (GoodEnd s ∧ ∃ w₁ w₂ rest, s.schedule = .together w₁ w₂ :: rest)

/-- No state makes a step refuse. -/
def Obligations.NoStepIsRefused : Prop := ∀ (s : State) (r : Refusal), step s ≠ .refused r

/-- `W`, `H` and the other parameters "never change after construction": no step changes them. -/
def Obligations.StepKeepsTheParameters : Prop :=
  ∀ s t : State, step s = .next t → t.cfg = s.cfg

/-- A quiet step of a block that is between commands changes nothing but the schedule: "The block is idle between
commands and keeps all its state while idle" (60_exceptions.md section 10). -/
def Obligations.IdleBlockKeepsItsState : Prop :=
  ∀ (s : State) (rest : List HostEvent), s.sel = .deasserted →
    (s.schedule = .quiet :: rest ∨ (s.schedule = [] ∧ rest = [])) →
    step s = .next { s with schedule := rest }

/-! ## The step and the dispatch checks -/

/-- A step runs what arrives: a command word that decodes to `i` runs `exec i` on the state with the event taken off
the schedule; with nothing arriving in mid-transaction, the wire item at the encoder's position is run. A command
taken call by call is `exec i` too, but for the two that make a transaction (those: CallByCallEqualsTheAtomicCommand).
The second clause also holds for a block with an illegal word recorded in mid-transaction: that its transaction goes on
is the model's reading, not the spec's words (DEDUCED, log 26), and the item as one step is log 9. -/
def Obligations.StepRunsTheDecodedInstruction : Prop :=
  (∀ (s : State) (w : CmdWord) (i : Instr) (rest : List HostEvent),
    s.schedule = .command w :: rest → decodeCommand w = .ok i → step s = exec i { s with schedule := rest }) ∧
  (∀ (s : State) (i : Instr) (rest : List HostEvent),
    (s.schedule = .quiet :: rest ∨ (s.schedule = [] ∧ rest = [])) →
    MidTransaction s → wireItemAt s = some i → step s = exec i { s with schedule := rest }) ∧
  (∀ (s : State) (w : CmdWord) (i : Instr) (rest : List HostEvent),
    s.schedule = .commandByCalls w :: rest → decodeCommand w = .ok i → startsTransaction i = false →
    step s = exec i { s with schedule := rest })

/-- Dispatch check 1 (42_device_control.md section 1, decision D16; 60_exceptions.md section 2, decision D17): in a
faulted block any word, legal or not, is answered `Fault(fault)` and changes nothing. That the trace too is unchanged
at this step when an overlap interrupted a transaction (TxnOverlap with `sel = 1`) is the model's choice (log 17): the
spec leaves that transaction's further calls unspecified, and the model makes them on quiet steps alone and never answers
that transaction. -/
def Obligations.FaultedBlockAnswersOnlyItsFault : Prop :=
  ∀ (s : State) (w : CmdWord) (rest : List HostEvent), s.fault ≠ .noFault → Arrives w rest s →
    ∃ t, step s = .next t ∧ t.responses = s.responses ++ [.fault (faultCode s.fault)] ∧
      { t with responses := s.responses, schedule := s.schedule } = s

/-- "`fault` is cleared only by RESET" (60_exceptions.md section 2, decision D17): no other step clears a fault that is
recorded, and "Once different from `None` it never changes until RESET" (10_state.md section 5, decision D15). -/
def Obligations.OnlyResetClearsAFault : Prop :=
  ∀ s t : State, s.fault ≠ .noFault → (∀ rot bytes rest, s.schedule ≠ .reset rot bytes :: rest) →
    step s = .next t → t.fault = s.fault

/-- Dispatch check 2 (decisions D6 and D16): a word that matches no row of the table raises IllegalCommand, code 5,
with the word recorded, whatever `sel` is, and has no other effect. -/
def Obligations.UnmatchedWordRaisesIllegalCommand : Prop :=
  ∀ (s : State) (w : CmdWord) (rest : List HostEvent), s.fault = .noFault → MatchesNoRow w → Arrives w rest s →
    ∃ t, step s = .next t ∧ t.fault = .illegalCommand w ∧ t.responses = s.responses ++ [.fault 5] ∧
      { t with fault := s.fault, responses := s.responses, schedule := s.schedule } = s

/-- Dispatch check 3 (decisions D14 and D16): a legal command that arrives with `sel = 1` raises TxnOverlap, code 4,
with its `op` recorded, and has no other effect. That the interrupted transaction makes no call and is given no response
at this step is the model's choice (DESIGN CHOICE, log 17). -/
def Obligations.CommandInMidTransactionRaisesTxnOverlap : Prop :=
  ∀ (s : State) (w : CmdWord) (i : Instr) (rest : List HostEvent), s.fault = .noFault → configOK s.cfg = true →
    s.sel = .asserted → decodeCommand w = .ok i → Arrives w rest s →
    ∃ t, step s = .next t ∧ t.fault = .txnOverlap (w.extractLsb' 36 4) ∧
      t.responses = s.responses ++ [.fault 4] ∧
      { t with fault := s.fault, responses := s.responses, schedule := s.schedule } = s

/-- A malformed configuration: after RESET the block is in ConfigFault and answers every word `Fault(2)`. `ConfigOK` is
that of 00_scope.md section 4, whose bound on `H` is the spec's decision D2; that RESET itself gives no response, so
that the word's is the only one, is the model's choice (log 27). -/
def Obligations.MalformedConfigurationAnswersConfigFault : Prop :=
  ∀ (s : State) (rot : Rotation) (bytes : List Byte) (w : CmdWord) (rest : List HostEvent),
    (s.cfg.width.toNat = 0 ∨ s.cfg.height.toNat = 0 ∨ s.cfg.width.toNat % 8 ≠ 0 ∨ s.cfg.height.toNat % 8 ≠ 0 ∨
      255 < s.cfg.height.toNat) →
    (s.schedule = .reset rot bytes :: .command w :: rest ∨
      s.schedule = .reset rot bytes :: .commandByCalls w :: rest) →
    ∃ t u, step s = .next t ∧ step t = .next u ∧ t.fault = .configFault ∧ u.fault = .configFault ∧
      u.responses = [.fault 2]

/-- Two commands truly at once (70_reset_and_hazards.md section 3; 93_implementation_defined.md U3): with no fault and
`sel = 0` there is no step, which the model expresses by its own outcome `concurrentCommands` (DEDUCED, log 14); with
`sel = 1` there is TxnOverlap. That the two are dispatched in the event's order, so that the first word is the one
recorded and the second finds its fault, is the model's choice (DESIGN CHOICE, log 14), and so is that the interrupted
transaction is given no response (DESIGN CHOICE, log 17). -/
def Obligations.CommandsAtOnceHaveNoStepWhenIdle : Prop :=
  (∀ (s : State) (w₁ w₂ : CmdWord) (rest : List HostEvent), s.schedule = .together w₁ w₂ :: rest →
    s.fault = .noFault → s.sel = .deasserted → step s = .fault .concurrentCommands) ∧
  (∀ (s : State) (w₁ w₂ : CmdWord) (i : Instr) (rest : List HostEvent), s.schedule = .together w₁ w₂ :: rest →
    s.fault = .noFault → configOK s.cfg = true → s.sel = .asserted → decodeCommand w₁ = .ok i →
    ∃ t, step s = .next t ∧ t.fault = .txnOverlap (w₁.extractLsb' 36 4) ∧
      t.responses = s.responses ++ [.fault 4, .fault 4])

/-! ## Coordinates and bits -/

/-- The four rotation transforms, over the integers. -/
def Obligations.TransformIsTheFourFormulas : Prop :=
  ∀ (c : Config) (x y : Int),
    transform c .deg0 x y = (x, y) ∧
    transform c .deg90 x y = ((c.width.toNat : Int) - 1 - y, x) ∧
    transform c .deg180 x y = ((c.width.toNat : Int) - 1 - x, (c.height.toNat : Int) - 1 - y) ∧
    transform c .deg270 x y = (y, (c.height.toNat : Int) - 1 - x)

/-- The transform restricted to the logical rectangle is a bijection onto the native rectangle (40_framebuffer.md
section 2, marked there as derived), for every configuration, square or not. -/
def Obligations.TransformIsABijectionOfRectangles : Prop :=
  ∀ (c : Config) (r : Rotation),
    (∀ x y : Int, InRange c (transform c r x y) ↔
      (0 ≤ x ∧ x < (logicalWidth c r).toNat) ∧ (0 ≤ y ∧ y < (logicalHeight c r).toNat)) ∧
    (∀ q : Int × Int, InRange c q → ∃ x y : Int, transform c r x y = q ∧
      ∀ x' y' : Int, transform c r x' y' = q → x' = x ∧ y' = y)

/-- Inverses and compositions of the transforms (40_framebuffer.md section 2, marked there as derived;
90_conflicts.md C4): 180° twice is the identity; 90° and 270° compose to the identity exactly when `W = H`. -/
def Obligations.TransformInversesAndCompositions : Prop :=
  ∀ (c : Config) (x y : Int),
    (let p := transform c .deg180 x y; transform c .deg180 p.1 p.2 = (x, y)) ∧
    (let p := transform c .deg90 x y; (p.2, (c.width.toNat : Int) - 1 - p.1) = (x, y)) ∧
    (let p := transform c .deg270 x y; ((c.height.toNat : Int) - 1 - p.2, p.1) = (x, y)) ∧
    (let p := transform c .deg90 x y;
      transform c .deg270 p.1 p.2 = (x, y + (c.height.toNat : Int) - c.width.toNat)) ∧
    (let p := transform c .deg270 x y;
      transform c .deg90 p.1 p.2 = (x + (c.width.toNat : Int) - c.height.toNat, y)) ∧
    ((let p := transform c .deg90 x y; transform c .deg270 p.1 p.2 = (x, y)) ↔ c.width = c.height)

/-- The bit address: byte index and bit position by the formulas, inside the buffer, one pixel to one bit of one byte
and back. -/
def Obligations.BitAddressIsABijection : Prop :=
  ∀ c : Config, configOK c = true →
    (∀ x y : Nat, x < c.width.toNat → y < c.height.toNat →
      byteIndexOf c (x, y) = (y * c.width.toNat + x) / 8 ∧
      byteIndexOf c (x, y) = y * (c.width.toNat / 8) + x / 8 ∧
      byteIndexOf c (x, y) < c.width.toNat * c.height.toNat / 8 ∧
      bitPositionOf (x, y) = x % 8 ∧ (y * c.width.toNat + x) % 8 = x % 8 ∧
      bitMask (bitPositionOf (x, y)) = 1#8 <<< (x % 8)) ∧
    (∀ s : State, s.cfg = c → ∀ x y : Nat, x < c.width.toNat → y < c.height.toNat →
      fbBit s (x, y) = BitVec.ofBool ((readByte s.fb ((y * c.width.toNat + x) / 8)).getLsbD (x % 8))) ∧
    (∀ p q : Int × Int, InRange c p → InRange c q → byteIndexOf c p = byteIndexOf c q →
      bitPositionOf p = bitPositionOf q → p = q) ∧
    (∀ idx k : Nat, idx < c.width.toNat * c.height.toNat / 8 → k < 8 →
      ∃ p : Int × Int, p = (((8 * (idx % (c.width.toNat / 8)) + k : Nat) : Int), ((idx / (c.width.toNat / 8) : Nat) : Int)) ∧
        InRange c p ∧ byteIndexOf c p = idx ∧ bitPositionOf p = k)

/-! ## The framebuffer commands -/

/-- SET_PIXEL: in range, the one byte of the addressed pixel is read, its bit set or cleared, and written; every
other byte is as before; out of range nothing is accessed. It answers `Done`, and no register, no transport call and
no other state changes. That `val` 1 stores a 1 is the spec's recorded reading D25. -/
def Obligations.SetPixelWritesTheAddressedByte : Prop :=
  ∀ (s : State) (v : Bit) (x y : Coord) (p : Int × Int), Ready s → Memory.wf s.fb = true →
    p = transform s.cfg s.rot x.toInt y.toInt →
    ∃ t, exec (.setPixel v x y) s = .next t ∧
      (InRange s.cfg p → readByte t.fb (byteIndexOf s.cfg p) =
        if v = 1#1 then readByte s.fb (byteIndexOf s.cfg p) ||| (1#8 <<< bitPositionOf p)
        else readByte s.fb (byteIndexOf s.cfg p) &&& ~~~(1#8 <<< bitPositionOf p)) ∧
      (∀ a, (InRange s.cfg p → a ≠ byteIndexOf s.cfg p) → readByte t.fb a = readByte s.fb a) ∧
      t.responses = s.responses ++ [.done] ∧
      { t with fb := s.fb, responses := s.responses } = s

/-- The frame property of SET_PIXEL (40_framebuffer.md section 4, marked there as derived): at most the bit at
`T(rot, x, y)` changes. -/
def Obligations.SetPixelChangesAtMostOneBit : Prop :=
  ∀ (s t : State) (v : Bit) (x y : Coord) (q : Int × Int), configOK s.cfg = true → Memory.wf s.fb = true →
    exec (.setPixel v x y) s = .next t → InRange s.cfg q → q ≠ transform s.cfg s.rot x.toInt y.toInt →
    fbBit t q = fbBit s q

/-- GET_PIXEL (the contract is the spec's decision D7; the `val` 0 of a miss carries no information, log 18):
`Pixel(1, FbBit(T(rot, x, y)))` in range and `Pixel(0, 0)` out of range; nothing but the response changes. -/
def Obligations.GetPixelAnswersTheAddressedBit : Prop :=
  ∀ (s : State) (x y : Coord) (p : Int × Int), Ready s → p = transform s.cfg s.rot x.toInt y.toInt →
    ∃ t, exec (.getPixel x y) s = .next t ∧
      t.responses = s.responses ++ [if InRange s.cfg p then .pixel 1#1 (fbBit s p) else .pixel 0#1 0#1] ∧
      (∀ a, readByte t.fb a = readByte s.fb a) ∧ { t with responses := s.responses } = s

/-- The write-then-read law (40_framebuffer.md section 4, marked there as derived): for every coordinate of the
logical rectangle and every rotation, after `set_pixel(x, y, v)` the raw bit at `T(rot, x, y)` is `v`,
`get_pixel(x, y)` answers `Pixel(1, v)`, and every other bit is as before. -/
def Obligations.PixelWrittenIsThePixelRead : Prop :=
  ∀ (s : State) (v : Bit) (x y : Coord), Ready s → Memory.wf s.fb = true →
    0 ≤ x.toInt → x.toInt < (logicalWidth s.cfg s.rot).toNat →
    0 ≤ y.toInt → y.toInt < (logicalHeight s.cfg s.rot).toNat →
    ∃ t u, exec (.setPixel v x y) s = .next t ∧ exec (.getPixel x y) t = .next u ∧
      fbBit t (transform s.cfg s.rot x.toInt y.toInt) = v ∧
      u.responses = s.responses ++ [.done, .pixel 1#1 v] ∧
      ∀ q, InRange s.cfg q → q ≠ transform s.cfg s.rot x.toInt y.toInt → fbBit u q = fbBit s q

/-- "An out-of-range pixel coordinate is not a fault": SET_PIXEL answers `Done` and leaves the buffer, GET_PIXEL
answers `Pixel(0, 0)` (its `val` 0 is the spec's decision D7 and carries no information, log 18), `fault` stays
None. -/
def Obligations.OutOfRangeCoordinateIsNoFault : Prop :=
  ∀ (s : State) (v : Bit) (x y : Coord), Ready s → ¬ InRange s.cfg (transform s.cfg s.rot x.toInt y.toInt) →
    ∃ t u, exec (.setPixel v x y) s = .next t ∧ exec (.getPixel x y) s = .next u ∧
      t.responses = s.responses ++ [.done] ∧ t.fault = .noFault ∧ (∀ a, readByte t.fb a = readByte s.fb a) ∧
      u.responses = s.responses ++ [.pixel 0#1 0#1] ∧ u.fault = .noFault

/-- CLEAR_BUFFER: every byte of `FB` becomes 0xFF, so that a full scan finds every pixel 1; it
answers `Done`; no other byte, register or transport call. -/
def Obligations.ClearBufferBlanksTheBuffer : Prop :=
  ∀ s : State, Ready s → Memory.wf s.fb = true →
    ∃ t, exec .clearBuffer s = .next t ∧
      (∀ a, readByte t.fb a = if a < s.cfg.width.toNat * s.cfg.height.toNat / 8 then 0xFF#8 else readByte s.fb a) ∧
      (∀ q, InRange s.cfg q → fbBit t q = 1#1) ∧
      t.responses = s.responses ++ [.done] ∧
      { t with fb := s.fb, responses := s.responses } = s

/-- SET_ROTATION (exposing the setter is the spec's decision D9): `rot` becomes `r`, `Done`, and nothing else
changes; in particular no byte of `FB`. -/
def Obligations.SetRotationSetsRotAlone : Prop :=
  ∀ (s : State) (r : Rotation), Ready s →
    ∃ t, exec (.setRotation r) s = .next t ∧ t.rot = r ∧ t.responses = s.responses ++ [.done] ∧
      (∀ a, readByte t.fb a = readByte s.fb a) ∧ { t with rot := s.rot, responses := s.responses } = s

/-- INIT (what it does is the spec's decision D10): every byte of `FB` 0xFF, `rot` becomes `r`, `Done`; `vcom`, `sel`
and everything else untouched, no transport call. -/
def Obligations.InitBlanksTheBufferAndSetsRot : Prop :=
  ∀ (s : State) (r : Rotation), Ready s → Memory.wf s.fb = true →
    ∃ t, exec (.init r) s = .next t ∧ t.rot = r ∧
      (∀ a, readByte t.fb a = if a < s.cfg.width.toNat * s.cfg.height.toNat / 8 then 0xFF#8 else readByte s.fb a) ∧
      t.responses = s.responses ++ [.done] ∧
      { t with fb := s.fb, rot := s.rot, responses := s.responses } = s

/-- GET_WIDTH and GET_HEIGHT answer the logical extent (the spec's decision D8, log 19): the native pair at 0° and
180°, exchanged at 90° and 270°; nothing but the response changes. -/
def Obligations.DimensionQueriesAnswerTheLogicalExtent : Prop :=
  ∀ s : State, Ready s →
    ∃ t u, exec .getWidth s = .next t ∧ exec .getHeight s = .next u ∧
      t.responses = s.responses ++
        [.dim (if s.rot = .deg0 ∨ s.rot = .deg180 then s.cfg.width else s.cfg.height)] ∧
      u.responses = s.responses ++
        [.dim (if s.rot = .deg0 ∨ s.rot = .deg180 then s.cfg.height else s.cfg.width)] ∧
      (∀ a, readByte t.fb a = readByte s.fb a ∧ readByte u.fb a = readByte s.fb a) ∧
      { t with responses := s.responses } = s ∧ { u with responses := s.responses } = s

/-- A command other than CLEAR_DISPLAY and REFRESH, whatever it answers (its effect or a fault), makes no transport
call and writes neither `vcom`, `sel`, the loop variables nor the encoder's position. -/
def Obligations.OtherCommandsMakeNoTransportCall : Prop :=
  ∀ (i : Instr) (s t : State), i.isCommand = true → startsTransaction i = false → exec i s = .next t →
    t.trace = s.trace ∧
    { t with fb := s.fb, rot := s.rot, fault := s.fault, responses := s.responses } = s

/-! ## CLEAR_DISPLAY -/

/-- CLEAR_DISPLAY with a transport that answers: the clear frame, one flip of `vcom`, `sel` back at 0, `Done`; the
buffer is untouched, or filled with 0xFF if `CLEAR_DISPLAY_CLEARS_BUFFER` (the parameter of decision D12, both values
covered); `rot`, the parameters and the loop variables untouched. -/
def Obligations.ClearDisplaySendsTheClearFrame : Prop :=
  ∀ s : State, Ready s → Memory.wf s.fb = true → CallsSucceed 4 s →
    ∃ t, exec .clearDisplay s = .next t ∧
      t.trace = s.trace ++
        [.assertSelect, .tx (0x04#8 ||| s.vcom.setWidth 8 <<< 1), .tx 0x00#8, .deassertSelect] ∧
      t.vcom = s.vcom ^^^ 1#1 ∧ t.sel = .deasserted ∧ t.pos = .idle ∧ t.fault = .noFault ∧
      t.responses = s.responses ++ [.done] ∧
      (∀ a, readByte t.fb a = if s.cfg.clearDisplayClearsBuffer = true ∧ a < bufferBytes s.cfg then 0xFF#8
        else readByte s.fb a) ∧
      { t with fb := s.fb, vcom := s.vcom, pos := s.pos, callPos := s.callPos, busLog := s.busLog,
               responses := s.responses, answers := s.answers, draws := s.draws } = s

/-- The alternation law for clear (41_protocol_encoder.md section 3, marked there as derived): from `vcom = 0` two
clears send `04 00` and `06 00`, and `vcom` is 1 and then 0 again. -/
def Obligations.TwoClearsAlternateThePolarity : Prop :=
  ∀ s : State, Ready s → s.vcom = 0#1 → CallsSucceed 8 s →
    ∃ t u, exec .clearDisplay s = .next t ∧ exec .clearDisplay t = .next u ∧ t.vcom = 1#1 ∧ u.vcom = 0#1 ∧
      u.trace = s.trace ++ [.assertSelect, .tx 0x04#8, .tx 0x00#8, .deassertSelect,
                            .assertSelect, .tx 0x06#8, .tx 0x00#8, .deassertSelect]

/-- A transport call of CLEAR_DISPLAY that fails (the frozen state is the spec's decision D13): TransportFault(k) with
the position of the failing call, the calls before it in the trace and no other, `sel = 1` from k = 1 on, `vcom`
flipped only at k = 3; buffer and `rot` as before. -/
def Obligations.ClearDisplayStopsAtTheFailingCall : Prop :=
  ∀ (s : State) (k : Nat), Ready s → k < 4 → FailsAt k s →
    ∃ t, exec .clearDisplay s = .next t ∧ t.fault = .transportFault k ∧
      t.trace = s.trace ++ (clearFrame s.vcom).take k ∧
      t.sel = (if k = 0 then .deasserted else .asserted) ∧
      t.vcom = (if k = 3 then s.vcom ^^^ 1#1 else s.vcom) ∧
      t.responses = s.responses ++ [.fault 3] ∧ t.fb = s.fb ∧ t.rot = s.rot ∧ t.cfg = s.cfg ∧
      t.byteIndex = s.byteIndex ∧ t.prevLine = s.prevLine ∧ t.answers = s.answers.drop (k + 1)

/-! ## REFRESH -/

/-- REFRESH with a transport that answers: exactly the frame in closed form (41_protocol_encoder.md section 4, marked
there as derived from the loop), one flip of `vcom`, `sel` back at 0, `Done`; no byte of `FB`, not `rot` nor the
parameters change; the loop variables end at `N` and `H + 1`. -/
def Obligations.RefreshSendsTheRefreshFrame : Prop :=
  ∀ s : State, Ready s → CallsSucceed (4 + nativeHeight s.cfg * (bytesPerLine s.cfg + 2)) s →
    ∃ t, exec .refresh s = .next t ∧
      t.trace = s.trace ++ refreshFrame s.cfg s.vcom s.fb ∧
      t.vcom = s.vcom ^^^ 1#1 ∧ t.sel = .deasserted ∧ t.pos = .idle ∧ t.fault = .noFault ∧
      t.responses = s.responses ++ [.done] ∧
      t.byteIndex = bufferBytes s.cfg ∧ t.prevLine = nativeHeight s.cfg + 1 ∧
      (∀ a, readByte t.fb a = readByte s.fb a) ∧
      { t with vcom := s.vcom, byteIndex := s.byteIndex, prevLine := s.prevLine, pos := s.pos, callPos := s.callPos,
               busLog := s.busLog, responses := s.responses, answers := s.answers, draws := s.draws } = s

/-- A refresh makes `4 + H*(BPL + 2)` transport calls, `2 + H*(BPL + 2)` of them `Tx` (41_protocol_encoder.md section
4, marked there as derived): 2306 bytes for 128×128 (90_conflicts.md C1). -/
def Obligations.RefreshLengthIsTheClosedForm : Prop :=
  ∀ s : State, Ready s → CallsSucceed (4 + nativeHeight s.cfg * (bytesPerLine s.cfg + 2)) s →
    ∃ t, exec .refresh s = .next t ∧
      t.trace.length = s.trace.length + (4 + nativeHeight s.cfg * (bytesPerLine s.cfg + 2)) ∧
      ((t.trace.drop s.trace.length).filter (fun e => e ≠ .assertSelect ∧ e ≠ .deassertSelect)).length
        = 2 + nativeHeight s.cfg * (bytesPerLine s.cfg + 2) ∧
      (s.cfg.width = 128#16 → s.cfg.height = 128#16 →
        ((t.trace.drop s.trace.length).filter (fun e => e ≠ .assertSelect ∧ e ≠ .deassertSelect)).length = 2306)

/-- The line addresses: the byte at stream offset `1 + (L-1)*(BPL+2)` of a refresh is `L`, for `L = 1..H` in this
order (41_protocol_encoder.md section 4, marked there as derived). -/
def Obligations.RefreshAddressesEveryLineInOrder : Prop :=
  ∀ (s : State) (l : Nat), Ready s → CallsSucceed (4 + nativeHeight s.cfg * (bytesPerLine s.cfg + 2)) s →
    1 ≤ l → l ≤ nativeHeight s.cfg →
    ∃ t b, exec .refresh s = .next t ∧
      t.trace[s.trace.length + 1 + (1 + (l - 1) * (bytesPerLine s.cfg + 2))]? = some (.tx b) ∧ b.toNat = l

/-- A REFRESH sends what the commands before it wrote (20_memory.md section 5, decision D22): after a SET_PIXEL in
range, the byte the refresh sends for native line `y'`, place `x'/8`, has the value written at bit `x' mod 8`. -/
def Obligations.RefreshSendsThePixelWritten : Prop :=
  ∀ (s : State) (v : Bit) (x y : Coord) (x' y' : Nat), Ready s → Memory.wf s.fb = true →
    CallsSucceed (4 + nativeHeight s.cfg * (bytesPerLine s.cfg + 2)) s →
    transform s.cfg s.rot x.toInt y.toInt = ((x' : Int), (y' : Int)) → x' < nativeWidth s.cfg → y' < nativeHeight s.cfg →
    ∃ t u b, exec (.setPixel v x y) s = .next t ∧ exec .refresh t = .next u ∧
      u.trace[s.trace.length + 1 + (1 + y' * (bytesPerLine s.cfg + 2)) + (1 + x' / 8)]? = some (.tx b) ∧
      b.getLsbD (x' % 8) = (v == 1#1)

/-- Idempotence (41_protocol_encoder.md section 4, marked there as derived): two refreshes of an unchanged buffer send
the same events but for the command byte, which is 0x01 and 0x03 in one order or the other. -/
def Obligations.TwoRefreshesDifferInTheCommandByte : Prop :=
  ∀ s : State, Ready s → CallsSucceed (2 * (4 + nativeHeight s.cfg * (bytesPerLine s.cfg + 2))) s →
    ∃ t u c₁ c₂ rest, exec .refresh s = .next t ∧ exec .refresh t = .next u ∧
      t.trace = s.trace ++ .assertSelect :: .tx c₁ :: rest ∧
      u.trace = t.trace ++ .assertSelect :: .tx c₂ :: rest ∧
      ((c₁ = 0x01#8 ∧ c₂ = 0x03#8) ∨ (c₁ = 0x03#8 ∧ c₂ = 0x01#8))

/-- The encoder is a pure function: with a transport that never fails, what a CLEAR_DISPLAY appends to the trace
depends on `vcom` alone, and what a REFRESH appends on `vcom`, `FB`, `W` and `H` alone; not on `rot`, the history or
the bytes the transport returned. -/
def Obligations.EncoderIsAPureFunction : Prop :=
  (∀ s s' : State, Ready s → Ready s' → CallsSucceed 4 s → CallsSucceed 4 s' → s.vcom = s'.vcom →
    ∃ t t' events, exec .clearDisplay s = .next t ∧ exec .clearDisplay s' = .next t' ∧
      t.trace = s.trace ++ events ∧ t'.trace = s'.trace ++ events) ∧
  (∀ s s' : State, Ready s → Ready s' →
    CallsSucceed (4 + nativeHeight s.cfg * (bytesPerLine s.cfg + 2)) s →
    CallsSucceed (4 + nativeHeight s.cfg * (bytesPerLine s.cfg + 2)) s' →
    s.vcom = s'.vcom → s.cfg.width = s'.cfg.width → s.cfg.height = s'.cfg.height →
    (∀ a, a < bufferBytes s.cfg → readByte s.fb a = readByte s'.fb a) →
    ∃ t t' events, exec .refresh s = .next t ∧ exec .refresh s' = .next t' ∧
      t.trace = s.trace ++ events ∧ t'.trace = s'.trace ++ events)

/-- A transport call of REFRESH that fails (the frozen state is the spec's decision D13): TransportFault(k), the `k`
calls before it in the trace and no other, `sel = 1` from k = 1 on, `vcom` flipped if and only if `k >= 2`; buffer
and `rot` as before. -/
def Obligations.RefreshStopsAtTheFailingCall : Prop :=
  ∀ (s : State) (k : Nat), Ready s → k < 4 + nativeHeight s.cfg * (bytesPerLine s.cfg + 2) → FailsAt k s →
    ∃ t, exec .refresh s = .next t ∧ t.fault = .transportFault k ∧
      t.trace = s.trace ++ (refreshFrame s.cfg s.vcom s.fb).take k ∧
      t.sel = (if k = 0 then .deasserted else .asserted) ∧
      t.vcom = (if 2 ≤ k then s.vcom ^^^ 1#1 else s.vcom) ∧
      t.responses = s.responses ++ [.fault 3] ∧ t.fb = s.fb ∧ t.rot = s.rot ∧ t.cfg = s.cfg ∧
      t.answers = s.answers.drop (k + 1)

/-- Ownership: REFRESH never writes `FB`, whatever it answers; nothing except CLEAR_DISPLAY and REFRESH writes `vcom`
among the commands; and each REFRESH sends the contents `FB` has when it starts. -/
def Obligations.EncoderOwnsVcomAndOnlyReadsTheBuffer : Prop :=
  (∀ s t : State, exec .refresh s = .next t → t.fb = s.fb) ∧
  (∀ (i : Instr) (s t : State), i.isCommand = true → startsTransaction i = false → exec i s = .next t →
    t.vcom = s.vcom) ∧
  (∀ s : State, Ready s → CallsSucceed (4 + nativeHeight s.cfg * (bytesPerLine s.cfg + 2)) s →
    ∃ t, exec .refresh s = .next t ∧ ∀ y j, y < nativeHeight s.cfg → j < bytesPerLine s.cfg →
      t.trace[s.trace.length + 2 + y * (bytesPerLine s.cfg + 2) + (1 + j)]? =
        some (.tx (readByte s.fb (y * bytesPerLine s.cfg + j))))

/-- Whole machine: `vcom` changes at a step only if RESET arrives, if a CLEAR_DISPLAY or REFRESH arrives at an unfaulted
idle block, or if a transaction is in progress and nothing arrives. From 10_state.md section 4: "It is set by nothing
but the flip `vcom <- vcom ^ 1` inside CLEAR_DISPLAY ... and REFRESH". That a transaction is still in progress with an
illegal word recorded is the model's reading (DEDUCED, log 26). That `vcom` keeps its value on the quiet steps after
TxnOverlap interrupted a transaction is the model's choice (DESIGN CHOICE, log 17): the spec leaves that transaction's
further calls unspecified and says nothing of `vcom` there. -/
def Obligations.VcomChangesOnlyInTransactionsAndReset : Prop :=
  ∀ s t : State, step s = .next t → t.vcom ≠ s.vcom →
    (∃ rot bytes rest, s.schedule = .reset rot bytes :: rest) ∨
    (Ready s ∧ ∃ w i rest, Arrives w rest s ∧ decodeCommand w = .ok i ∧ startsTransaction i = true) ∨
    (MidTransaction s ∧ (s.schedule = [] ∨ ∃ rest, s.schedule = .quiet :: rest))

/-! ## Call by call -/

/-- Both forms of 41_protocol_encoder.md section 5 (decision D18) agree: CLEAR_DISPLAY or REFRESH taken one transport
call a step, with nothing arriving in between, leaves the very state the atomic command leaves, whatever the
transport answers. -/
def Obligations.CallByCallEqualsTheAtomicCommand : Prop :=
  ∀ (s : State) (i : Instr) (w : CmdWord), Ready s → s.schedule = [] → startsTransaction i = true →
    encode i = .command w →
    Host.Core.run Sys2Proof.core (4 + nativeHeight s.cfg * (bytesPerLine s.cfg + 2))
      { s with schedule := [.commandByCalls w] } = exec i s

/-- Steps 1 and 2 of a refresh, call by call: the select is asserted (`sel` becomes 1, `vcom` is not touched); then
byte 1 is `CMD_WRITE | vcom_bit` with the value `vcom` had, and `vcom` flips before any other byte is sent. No other
byte of a refresh flips it. The place of the polarity bit in the byte is derived in the spec (R62); one call a step is
the form of R122 (decision D18, log 10). -/
def Obligations.RefreshFlipsVcomRightAfterItsCommandByte : Prop :=
  (∀ (s : State) (w : CmdWord) (rest : List HostEvent), Ready s → encode .refresh = .command w →
    s.schedule = .commandByCalls w :: .quiet :: rest → CallsSucceed 2 s →
    ∃ t u, step s = .next t ∧ step t = .next u ∧
      t.trace = s.trace ++ [.assertSelect] ∧ t.sel = .asserted ∧ t.vcom = s.vcom ∧
      u.trace = s.trace ++ [.assertSelect, .tx (0x01#8 ||| s.vcom.setWidth 8 <<< 1)] ∧ u.sel = .asserted ∧
      u.vcom = s.vcom ^^^ 1#1) ∧
  (∀ (s t : State) (i : Instr), wireItemAt s = some i → exec i s = .next t →
    s.pos ≠ .refreshCommand → s.pos ≠ .clearTrailer → t.vcom = s.vcom)

/-- The write command byte: `000000V1`, 0x01 or 0x03; as an item of a transaction it is sent, with the current `vcom`,
at the start of a refresh, after which `vcom` has flipped and the first address is next; it occurs nowhere else, and
it is the first byte of every refresh whose calls succeed. That V = 1 gives 0x03 is derived in the spec (R62); the item
as one step with a next position is the model's reading (DEDUCED, logs 9 and 11). That it is sent in a block with an
illegal word recorded in mid-transaction too is the model's reading (DEDUCED, log 26). -/
def Obligations.WriteCommandByteStartsARefresh : Prop :=
  (writeCommandByte 0#1 = 0x01#8 ∧ writeCommandByte 1#1 = 0x03#8 ∧
    ∀ v, writeCommandByte v = 0#6 ++ v ++ 1#1) ∧
  (∀ s : State, MidTransaction s → s.pos = .refreshCommand → CallsSucceed 1 s →
    ∃ t, exec (.wireCmdWrite s.vcom) s = .next t ∧ t.trace = s.trace ++ [.tx (0x01#8 ||| s.vcom.setWidth 8 <<< 1)] ∧
      t.vcom = s.vcom ^^^ 1#1 ∧ t.pos = .firstAddress ∧ t.callPos = s.callPos + 1 ∧
      (∀ a, readByte t.fb a = readByte s.fb a) ∧
      { t with vcom := s.vcom, pos := s.pos, callPos := s.callPos, busLog := s.busLog, answers := s.answers,
               draws := s.draws } = s) ∧
  (∀ (s t : State) (v : Bit), exec (.wireCmdWrite v) s = .next t → s.pos = .refreshCommand ∧ v = s.vcom) ∧
  (∀ s : State, Ready s → CallsSucceed (4 + nativeHeight s.cfg * (bytesPerLine s.cfg + 2)) s →
    ∃ t, exec .refresh s = .next t ∧
      t.trace[s.trace.length + 1]? = some (.tx (if s.vcom = 0#1 then 0x01#8 else 0x03#8)))

/-- The clear command byte: `000001V0`, 0x04 or 0x06; it is sent, with the current `vcom`, at the start of a clear
transaction, with the trailer next and `vcom` not yet flipped; it occurs nowhere else. A clear whose calls succeed
sends `[0x04, 0x00]` or `[0x06, 0x00]`, with `vcom` flipped afterwards. Where the flip stands is R108 by the spec's
resolution C3; the item as one step with a next position is the model's reading (DEDUCED, logs 9 and 11). That it is
sent in a block with an illegal word recorded in mid-transaction too is the model's reading (DEDUCED, log 26). -/
def Obligations.ClearCommandByteStartsAClear : Prop :=
  (clearCommandByte 0#1 = 0x04#8 ∧ clearCommandByte 1#1 = 0x06#8 ∧
    ∀ v, clearCommandByte v = 0#5 ++ 1#1 ++ v ++ 0#1) ∧
  (∀ s : State, MidTransaction s → s.pos = .clearCommand → CallsSucceed 1 s →
    ∃ t, exec (.wireCmdClear s.vcom) s = .next t ∧ t.trace = s.trace ++ [.tx (0x04#8 ||| s.vcom.setWidth 8 <<< 1)] ∧
      t.vcom = s.vcom ∧ t.pos = .clearTrailer ∧ t.callPos = s.callPos + 1 ∧
      (∀ a, readByte t.fb a = readByte s.fb a) ∧
      { t with pos := s.pos, callPos := s.callPos, busLog := s.busLog, answers := s.answers,
               draws := s.draws } = s) ∧
  (∀ (s t : State) (v : Bit), exec (.wireCmdClear v) s = .next t → s.pos = .clearCommand ∧ v = s.vcom) ∧
  (∀ s : State, Ready s → CallsSucceed 4 s →
    ∃ t, exec .clearDisplay s = .next t ∧ t.vcom = s.vcom ^^^ 1#1 ∧
      t.trace = s.trace ++
        [.assertSelect, .tx (if s.vcom = 0#1 then 0x04#8 else 0x06#8), .tx 0x00#8, .deassertSelect])

/-- The line address byte: sent as 1 after the command byte of a refresh, and as `currentLine` after the trailer of a
line; in a state that meets the invariant its value is a line number `1 <= L <= H`, never 0, and it occurs nowhere
else. The first previous line 1 is R114 (decision D24), the updates of the loop variables are R115, that `H` fits a
byte is R8 (decision D2); the item as one step with a next position is the model's reading (DEDUCED, logs 9 and 11).
That both addresses are sent in a block with an illegal word recorded in mid-transaction too is the model's reading
(DEDUCED, log 26). -/
def Obligations.LineAddressByteIsTheLineNumber : Prop :=
  (∀ s : State, MidTransaction s → s.pos = .firstAddress → CallsSucceed 1 s →
    ∃ t, exec (.wireLineAddr 1#8) s = .next t ∧ t.trace = s.trace ++ [.tx 1#8] ∧ t.prevLine = 1 ∧ t.byteIndex = 0 ∧
      t.pos = (if 0 < bufferBytes s.cfg then .data else .finalTrailer) ∧
      (∀ a, readByte t.fb a = readByte s.fb a) ∧
      { t with byteIndex := s.byteIndex, prevLine := s.prevLine, pos := s.pos, callPos := s.callPos,
               busLog := s.busLog, answers := s.answers, draws := s.draws } = s) ∧
  (∀ (s : State) (l : Nat), MidTransaction s → s.pos = .lineAddress → CallsSucceed 1 s →
    l = (s.byteIndex + 1) / bytesPerLine s.cfg + 1 →
    ∃ t, exec (.wireLineAddr (BitVec.ofNat 8 l)) s = .next t ∧ t.trace = s.trace ++ [.tx (BitVec.ofNat 8 l)] ∧
      t.prevLine = l ∧ t.byteIndex = s.byteIndex + 1 ∧
      t.pos = (if s.byteIndex + 1 < bufferBytes s.cfg then .data else .finalTrailer) ∧
      (∀ a, readByte t.fb a = readByte s.fb a) ∧
      { t with byteIndex := s.byteIndex, prevLine := s.prevLine, pos := s.pos, callPos := s.callPos,
               busLog := s.busLog, answers := s.answers, draws := s.draws } = s) ∧
  (∀ (s t : State) (b : Byte), Inv s → exec (.wireLineAddr b) s = .next t →
    1 ≤ b.toNat ∧ b.toNat ≤ nativeHeight s.cfg ∧
    ((s.pos = .firstAddress ∧ b.toNat = 1) ∨
      (s.pos = .lineAddress ∧ b.toNat = (s.byteIndex + 1) / bytesPerLine s.cfg + 1)))

/-- The data byte: `FB[byteIndex]`, verbatim, bit `k` of it the pixel `x' = 8*(byteIndex mod BPL) + k` of native line
`byteIndex / BPL`; after it, the trailer is next if `currentLine` has changed from the previous line, else the next
byte (R115). Every value is a data byte at its position. The item as one step with a next position is the model's
reading (DEDUCED, logs 9 and 11). That it is sent in a block with an illegal word recorded in mid-transaction too is
the model's reading (DEDUCED, log 26). -/
def Obligations.DataByteIsTheBufferByte : Prop :=
  (∀ s : State, MidTransaction s → s.pos = .data → s.byteIndex < bufferBytes s.cfg →
    CallsSucceed 1 s →
    ∃ t, exec (.wireData (readByte s.fb s.byteIndex)) s = .next t ∧
      t.trace = s.trace ++ [.tx (readByte s.fb s.byteIndex)] ∧
      ((s.byteIndex + 1) / bytesPerLine s.cfg + 1 ≠ s.prevLine → t.pos = .lineTrailer ∧ t.byteIndex = s.byteIndex) ∧
      ((s.byteIndex + 1) / bytesPerLine s.cfg + 1 = s.prevLine → t.byteIndex = s.byteIndex + 1 ∧
        t.pos = (if s.byteIndex + 1 < bufferBytes s.cfg then .data else .finalTrailer)) ∧
      (∀ a, readByte t.fb a = readByte s.fb a) ∧
      { t with byteIndex := s.byteIndex, pos := s.pos, callPos := s.callPos,
               busLog := s.busLog, answers := s.answers, draws := s.draws } = s) ∧
  (∀ (s t : State) (d : Byte), exec (.wireData d) s = .next t →
    s.pos = .data ∧ s.byteIndex < bufferBytes s.cfg ∧ d = readByte s.fb s.byteIndex) ∧
  (∀ (s : State) (k : Nat), configOK s.cfg = true → s.byteIndex < bufferBytes s.cfg → k < 8 →
    InRange s.cfg ((8 * (s.byteIndex % bytesPerLine s.cfg) + k : Nat), (s.byteIndex / bytesPerLine s.cfg : Nat)) ∧
    fbBit s ((8 * (s.byteIndex % bytesPerLine s.cfg) + k : Nat), (s.byteIndex / bytesPerLine s.cfg : Nat)) =
      BitVec.ofBool ((readByte s.fb s.byteIndex).getLsbD k)) ∧
  (∀ b : Byte, decodeWireAt .data b = .ok (.wireData b))

/-- The trailer byte is 0x00: sent as byte 2 of a clear (after which `vcom` has flipped), after the last data byte of
a line (the next line's address follows while there is one), and as the last byte of a refresh; nowhere else. The flip
after a clear's trailer is R108 by the spec's resolution C3, the loop's continuation is R115 and R116; the item as one
step with a next position is the model's reading (DEDUCED, logs 9 and 11). That it is sent in a block with an illegal
word recorded in mid-transaction too is the model's reading (DEDUCED, log 26). -/
def Obligations.TrailerByteEndsLinesAndFrames : Prop :=
  (∀ s : State, MidTransaction s → CallsSucceed 1 s →
    (s.pos = .clearTrailer ∨ s.pos = .lineTrailer ∨ s.pos = .finalTrailer) →
    ∃ t, exec .wireTrailer s = .next t ∧ t.trace = s.trace ++ [.tx 0x00#8] ∧
      (s.pos = .clearTrailer → t.vcom = s.vcom ^^^ 1#1 ∧ t.pos = .clearDeassert ∧
        t.byteIndex = s.byteIndex ∧ t.prevLine = s.prevLine) ∧
      (s.pos = .lineTrailer → (s.byteIndex + 1) / bytesPerLine s.cfg + 1 ≤ nativeHeight s.cfg →
        t.vcom = s.vcom ∧ t.pos = .lineAddress ∧ t.byteIndex = s.byteIndex ∧ t.prevLine = s.prevLine) ∧
      (s.pos = .lineTrailer → nativeHeight s.cfg < (s.byteIndex + 1) / bytesPerLine s.cfg + 1 →
        t.vcom = s.vcom ∧ t.pos = (if s.byteIndex + 1 < bufferBytes s.cfg then .data else .finalTrailer) ∧
        t.byteIndex = s.byteIndex + 1 ∧ t.prevLine = (s.byteIndex + 1) / bytesPerLine s.cfg + 1) ∧
      (s.pos = .finalTrailer → t.vcom = s.vcom ∧ t.pos = .refreshDeassert ∧
        t.byteIndex = s.byteIndex ∧ t.prevLine = s.prevLine) ∧
      (∀ a, readByte t.fb a = readByte s.fb a) ∧
      { t with vcom := s.vcom, byteIndex := s.byteIndex, prevLine := s.prevLine, pos := s.pos, callPos := s.callPos,
               busLog := s.busLog, answers := s.answers, draws := s.draws } = s) ∧
  (∀ s t : State, exec .wireTrailer s = .next t →
    s.pos = .clearTrailer ∨ s.pos = .lineTrailer ∨ s.pos = .finalTrailer)

/-- A wire item whose transport call fails raises TransportFault with the position of the call; no event is recorded,
every register keeps its value and no further call is next (decision D13). In a block with an illegal word recorded,
whose transaction goes on by the model's reading (DEDUCED, log 26), `fault` keeps that IllegalCommand, which "never
changes until RESET" (10_state.md section 5), while the response is still Fault(3) (log 28). -/
def Obligations.WireItemThatFailsFreezesTheState : Prop :=
  ∀ (s : State) (i : Instr), MidTransaction s → wireItemAt s = some i → FailsAt 0 s →
    ∃ t, exec i s = .next t ∧ t.fault = (if s.fault = .noFault then .transportFault s.callPos else s.fault) ∧
      t.responses = s.responses ++ [.fault 3] ∧ t.pos = .stopped ∧
      { t with fault := s.fault, pos := s.pos, responses := s.responses, answers := s.answers, draws := s.draws } = s

/-- A wire item that is not the one at the encoder's position is refused: the outcome `notNextWireItem` is the model's
own (DEDUCED, log 9), for an item of which the spec says that it occurs nowhere else and gives it no effect there. -/
def Obligations.WireItemOutOfPlaceIsRefused : Prop :=
  ∀ (s : State) (i : Instr), i.isCommand = false → wireItemAt s ≠ some i → exec i s = .refused .notNextWireItem

/-- The byte `transfer_byte` returns is ignored: replacing the bytes of successful answers changes nothing of what an
instruction does. -/
def Obligations.ReturnedBytesAreIgnored : Prop :=
  ∀ (i : Instr) (s t : State) (as : List Answer),
    as.map (fun a => decide (a = .failed)) = s.answers.map (fun a => decide (a = .failed)) →
    exec i s = .next t →
    ∃ as', exec i { s with answers := as } = .next { t with answers := as' }

/-! ## Encodings -/

/-- Decoding an encoded well-formed instruction gives it back, with every operand at every value: a command word by
the table, a wire byte at its position in the frame. The command word is the spec's own (decision D5). -/
def Obligations.DecodeOfEncodeIsTheInstruction : Prop :=
  ∀ i : Instr, i.wellFormed = true → decodeAt (framePosition i) (encode i) = .ok i

/-- Each word, and each byte at its position, has one meaning: what decodes to `i` is the encoding of `i`, and `i` is
well formed. -/
def Obligations.EncodeOfDecodeIsTheWord : Prop :=
  (∀ (w : CmdWord) (i : Instr), decodeCommand w = .ok i →
    encode i = .command w ∧ i.wellFormed = true ∧ i.isCommand = true) ∧
  (∀ (p : FramePosition) (b : Byte) (i : Instr), decodeWireAt p b = .ok i →
    encode i = .wire b ∧ framePosition i = p ∧ i.wellFormed = true ∧ i.isCommand = false)

/-- The decoder follows the table: it reads an instruction exactly from the words that match a row (decisions D5 and
D6), no word matches two rows, and a word of a reserved `op` is rejected as such. -/
def Obligations.DecoderAcceptsExactlyTheRows : Prop :=
  (∀ w : CmdWord, MatchesNoRow w ↔ ∃ e, decodeCommand w = .error e) ∧
  (∀ w : CmdWord, ∀ a ∈ commandRows, ∀ b ∈ commandRows, w &&& a.1 = a.2 → w &&& b.1 = b.2 → a = b) ∧
  (∀ w : CmdWord, 9 ≤ (w.extractLsb' 36 4).toNat → decodeCommand w = .error (.reservedOp (w.extractLsb' 36 4)))

/-- Words written out from 95_test_vectors.md V-ENC and P1 to P4, and bytes from its traces. -/
def Obligations.SampleWordsDecode : Prop :=
  decodeCommand 0x0800000000#40 = .ok (.init .deg180) ∧
  decodeCommand 0x1180007FFF#40 = .ok (.setPixel 1#1 0x8000#16 0x7FFF#16) ∧
  decodeCommand 0x10FFFF0000#40 = .ok (.setPixel 0#1 0xFFFF#16 0#16) ∧
  decodeCommand 0x20000C0002#40 = .ok (.getPixel 12#16 2#16) ∧
  decodeCommand 0x3000000000#40 = .ok .clearBuffer ∧
  decodeCommand 0x4000000000#40 = .ok .clearDisplay ∧
  decodeCommand 0x5000000000#40 = .ok .refresh ∧
  decodeCommand 0x6400000000#40 = .ok (.setRotation .deg90) ∧
  decodeCommand 0x7000000000#40 = .ok .getWidth ∧
  decodeCommand 0x8000000000#40 = .ok .getHeight ∧
  decodeCommand 0x1200030005#40 = .error (.unusedBits 1#4) ∧
  decodeCommand 0xF000000000#40 = .error (.reservedOp 15#4) ∧
  decodeWireAt .command 0x03#8 = .ok (.wireCmdWrite 1#1) ∧
  decodeWireAt .command 0x06#8 = .ok (.wireCmdClear 1#1) ∧
  decodeWireAt .lineAddress 0x08#8 = .ok (.wireLineAddr 8#8) ∧
  decodeWireAt .data 0x7F#8 = .ok (.wireData 0x7F#8) ∧
  decodeWireAt .trailer 0x00#8 = .ok .wireTrailer

/-! ## An illegal word in mid-transaction -/

/-- An illegal word that arrived in mid-transaction does not stop the transaction: each quiet step of a block with that
IllegalCommand makes the same transport call and leaves the same state as the step of the block without it, the
IllegalCommand still recorded, also when the call fails (R27). The model's reading (DEDUCED, log 26) of
41_protocol_encoder.md section 5: "the host cannot make it stop". The equality covers the responses: that a call that
fails after the illegal word is answered Fault(3), as without it, is the model's choice (DESIGN CHOICE, log 28). -/
def Obligations.IllegalWordDoesNotStopTheTransaction : Prop :=
  ∀ (s u : State) (w : CmdWord) (rest : List HostEvent), s.fault = .noFault → s.sel = .asserted →
    (s.schedule = .quiet :: rest ∨ (s.schedule = [] ∧ rest = [])) → step s = .next u →
    step { s with fault := .illegalCommand w } =
      .next { u with fault := .illegalCommand w } ∧
    (u.fault = .noFault ∨ u.fault = .transportFault s.callPos ∧ u.pos = .stopped)
end

