-- ==== Sys2Proof/Laws/Decode.lean ====
section
/-! SUPPORT. The fields of a command word, and which words select a row of the table of R67. -/

namespace Sys2Proof

/-! ## The fields of a laid-out word -/

section
variable (op : BitVec 4) (r : BitVec 2) (val : Bit) (x y : Coord)

/-- The layout of R67, bit by bit. -/
theorem getLsbD_commandWord (i : Nat) : (commandWord op r val x y).getLsbD i =
    if i < 16 then y.getLsbD i else if i < 32 then x.getLsbD (i - 16) else if i < 33 then val.getLsbD (i - 32)
    else if i < 34 then false else if i < 36 then r.getLsbD (i - 34) else op.getLsbD (i - 36) := by
  simp only [commandWord, BitVec.getLsbD_append, Nat.sub_sub]
  repeat' split
  all_goals first | rfl | omega | simp

@[simp] theorem opField_commandWord : opField (commandWord op r val x y) = op := by
  apply BitVec.eq_of_getLsbD_eq
  intro i hi
  simp only [opField, BitVec.getLsbD_extractLsb', getLsbD_commandWord]
  interval_cases i <;> simp

@[simp] theorem rField_commandWord : rField (commandWord op r val x y) = r := by
  apply BitVec.eq_of_getLsbD_eq
  intro i hi
  simp only [rField, BitVec.getLsbD_extractLsb', getLsbD_commandWord]
  interval_cases i <;> simp

@[simp] theorem valField_commandWord : valField (commandWord op r val x y) = val := by
  apply BitVec.eq_of_getLsbD_eq
  intro i hi
  simp only [valField, BitVec.getLsbD_extractLsb', getLsbD_commandWord]
  interval_cases i; simp

@[simp] theorem xField_commandWord : xField (commandWord op r val x y) = x := by
  apply BitVec.eq_of_getLsbD_eq
  intro i hi
  simp only [xField, BitVec.getLsbD_extractLsb', getLsbD_commandWord]
  interval_cases i <;> simp

@[simp] theorem yField_commandWord : yField (commandWord op r val x y) = y := by
  apply BitVec.eq_of_getLsbD_eq
  intro i hi
  simp only [yField, BitVec.getLsbD_extractLsb', getLsbD_commandWord]
  interval_cases i <;> simp

end

/-! ## Orientation codes -/

@[simp] theorem rotationOfCode_rotationCode (r : Rotation) : rotationOfCode (rotationCode r) = r := by
  cases r <;> rfl

@[simp] theorem rotationCode_rotationOfCode (r : BitVec 2) : rotationCode (rotationOfCode r) = r := by
  revert r; decide

/-! ## Rows -/

theorem selects_bit {mask pattern w : CmdWord} (h : selects mask pattern w = true) (i : Nat) :
    (w.getLsbD i && mask.getLsbD i) = pattern.getLsbD i := by
  rw [← BitVec.getLsbD_and]
  simp only [selects, beq_iff_eq] at h
  rw [h]

/-- A mask that covers `op` selects by it: words of different operation codes select different rows. -/
theorem op_of_selects {mask pattern w : CmdWord} (h : selects mask pattern w = true)
    (hm : opField mask = 15#4) : opField w = opField pattern := by
  simp only [selects, beq_iff_eq] at h
  simp only [opField] at hm
  rw [← h, opField, opField, BitVec.extractLsb'_and, hm]
  generalize w.extractLsb' 36 4 = a
  revert a; decide

/-- A word of another operation code does not select a row. -/
theorem selects_false {mask pattern w : CmdWord} (hm : opField mask = 15#4) (h : opField w ≠ opField pattern) :
    selects mask pattern w = false := by
  cases hs : selects mask pattern w
  · rfl
  · exact absurd (op_of_selects hs hm) h

/-- The rows whose one operand is `r`. -/
theorem selects_r (op : BitVec 4) (w : CmdWord) :
    selects 0xF3FFFFFFFF#40 (commandWord op 0#2 0#1 0#16 0#16) w = true ↔
      w = commandWord op (rField w) 0#1 0#16 0#16 := by
  constructor
  · intro h
    apply BitVec.eq_of_getLsbD_eq
    intro i hi
    have := selects_bit h i
    simp only [getLsbD_commandWord, rField, BitVec.getLsbD_extractLsb'] at *
    interval_cases i <;> simp_all
  · intro h
    rw [h]
    simp only [selects, beq_iff_eq]
    apply BitVec.eq_of_getLsbD_eq
    intro i hi
    simp only [BitVec.getLsbD_and, getLsbD_commandWord]
    interval_cases i <;> simp

/-- The rows whose operands are `val`, `x` and `y`. -/
theorem selects_valxy (op : BitVec 4) (w : CmdWord) :
    selects 0xFE00000000#40 (commandWord op 0#2 0#1 0#16 0#16) w = true ↔
      w = commandWord op 0#2 (valField w) (xField w) (yField w) := by
  constructor
  · intro h
    apply BitVec.eq_of_getLsbD_eq
    intro i hi
    have := selects_bit h i
    simp only [getLsbD_commandWord, valField, xField, yField, BitVec.getLsbD_extractLsb'] at *
    interval_cases i <;> simp_all
  · intro h
    rw [h]
    simp only [selects, beq_iff_eq]
    apply BitVec.eq_of_getLsbD_eq
    intro i hi
    simp only [BitVec.getLsbD_and, getLsbD_commandWord]
    interval_cases i <;> simp

/-- The rows whose operands are `x` and `y`. -/
theorem selects_xy (op : BitVec 4) (w : CmdWord) :
    selects 0xFF00000000#40 (commandWord op 0#2 0#1 0#16 0#16) w = true ↔
      w = commandWord op 0#2 0#1 (xField w) (yField w) := by
  constructor
  · intro h
    apply BitVec.eq_of_getLsbD_eq
    intro i hi
    have := selects_bit h i
    simp only [getLsbD_commandWord, xField, yField, BitVec.getLsbD_extractLsb'] at *
    interval_cases i <;> simp_all
  · intro h
    rw [h]
    simp only [selects, beq_iff_eq]
    apply BitVec.eq_of_getLsbD_eq
    intro i hi
    simp only [BitVec.getLsbD_and, getLsbD_commandWord]
    interval_cases i <;> simp

/-- The rows with no operand: one word each. -/
theorem selects_all (pattern w : CmdWord) : selects 0xFFFFFFFFFF#40 pattern w = true ↔ w = pattern := by
  have h : (0xFFFFFFFFFF#40 : CmdWord) = BitVec.allOnes 40 := by decide
  rw [selects, beq_iff_eq, h, BitVec.and_allOnes]

end Sys2Proof
end

