-- ==== Sys2Proof/Laws/Geometry.lean ====
section
/-! SUPPORT. What a legal configuration gives (R6 to R8), and the frames of R73 and R117 byte by byte. -/

namespace Sys2Proof.Machine

/-! ## A legal configuration -/

theorem configOK_iff {c : Config} : configOK c = true ↔
    nativeWidth c ≠ 0 ∧ nativeHeight c ≠ 0 ∧ nativeWidth c % 8 = 0 ∧ nativeHeight c % 8 = 0 ∧ nativeHeight c ≤ 255 := by
  simp [configOK, and_assoc]

theorem width_eq {c : Config} (h : configOK c = true) : nativeWidth c = 8 * bytesPerLine c := by
  have := configOK_iff.1 h
  unfold bytesPerLine; omega

theorem bytesPerLine_pos {c : Config} (h : configOK c = true) : 0 < bytesPerLine c := by
  have := configOK_iff.1 h
  unfold bytesPerLine; omega

theorem height_pos {c : Config} (h : configOK c = true) : 0 < nativeHeight c := by
  have := configOK_iff.1 h
  omega

theorem bufferBytes_eq {c : Config} (h : configOK c = true) :
    bufferBytes c = nativeHeight c * bytesPerLine c := by
  unfold bufferBytes
  rw [width_eq h, Nat.mul_assoc, Nat.mul_div_cancel_left _ (by decide), Nat.mul_comm]

/-- Byte `j` of line `y` is inside the buffer. -/
theorem lineIndex_lt {c : Config} (h : configOK c = true) {y j : Nat} (hy : y < nativeHeight c)
    (hj : j < bytesPerLine c) : y * bytesPerLine c + j < bufferBytes c := by
  rw [bufferBytes_eq h]
  calc y * bytesPerLine c + j < y * bytesPerLine c + bytesPerLine c := by omega
    _ = (y + 1) * bytesPerLine c := by ring
    _ ≤ nativeHeight c * bytesPerLine c := Nat.mul_le_mul_right _ hy

/-! ## Frames, call by call -/

theorem getElem?_flatMap_range {α : Type} {f : Nat → List α} {len : Nat} (hlen : ∀ y, (f y).length = len)
    (n y j : Nat) (hy : y < n) (hj : j < len) : ((List.range n).flatMap f)[y * len + j]? = (f y)[j]? := by
  induction n with
  | zero => omega
  | succ n ih =>
    have hl : ((List.range n).flatMap f).length = n * len := by
      simp [List.length_flatMap, hlen]
    rw [List.range_succ, List.flatMap_append]
    by_cases h : y < n
    · have : y * len + j < n * len := by
        calc y * len + j < y * len + len := by omega
          _ = (y + 1) * len := by ring
          _ ≤ n * len := Nat.mul_le_mul_right _ h
      rw [List.getElem?_append_left (by omega), ih h]
    · obtain rfl : y = n := by omega
      rw [List.getElem?_append_right (by omega), hl]
      simp

theorem length_lineBytes (c : Config) (m : Memory) (y : Nat) :
    (lineBytes c m y).length = bytesPerLine c + 2 := by
  simp [lineBytes]

theorem length_lines (c : Config) (m : Memory) :
    ((List.range (nativeHeight c)).flatMap (lineBytes c m)).length = nativeHeight c * (bytesPerLine c + 2) := by
  simp [List.length_flatMap, length_lineBytes]

/-- The length of R118. -/
theorem length_refreshBytes (c : Config) (v : Bit) (m : Memory) :
    (refreshBytes c v m).length = refreshTxCount c := by
  have := length_lines c m
  simp only [refreshBytes, refreshTxCount, List.length_append, List.length_cons, List.length_nil] at *
  omega

theorem length_refreshFrame (c : Config) (v : Bit) (m : Memory) :
    (refreshFrame c v m).length = refreshTxCount c + 2 := by
  simp [refreshFrame, length_refreshBytes]

theorem refreshFrame_assert (c : Config) (v : Bit) (m : Memory) :
    (refreshFrame c v m)[0]? = some .assertSelect := by
  simp [refreshFrame]

theorem refreshFrame_tx (c : Config) (v : Bit) (m : Memory) (k : Nat) (h : k < refreshTxCount c) :
    (refreshFrame c v m)[k + 1]? = ((refreshBytes c v m)[k]?).map .tx := by
  simp only [refreshFrame, List.cons_append, List.getElem?_cons_succ]
  rw [List.getElem?_append_left (by simpa [length_refreshBytes] using h), List.getElem?_map]

theorem refreshFrame_deassert (c : Config) (v : Bit) (m : Memory) :
    (refreshFrame c v m)[refreshTxCount c + 1]? = some .deassertSelect := by
  simp only [refreshFrame, List.cons_append, List.getElem?_cons_succ]
  rw [List.getElem?_append_right (by simp [length_refreshBytes])]
  simp [length_refreshBytes]

theorem refreshBytes_command (c : Config) (v : Bit) (m : Memory) :
    (refreshBytes c v m)[0]? = some (writeCommandByte v) := by
  simp [refreshBytes]

/-- The byte at offset `1 + y*(BPL+2) + i` is byte `i` of line `y` (R117). -/
theorem refreshBytes_line (c : Config) (v : Bit) (m : Memory) {y i : Nat} (hy : y < nativeHeight c)
    (hi : i < bytesPerLine c + 2) :
    (refreshBytes c v m)[1 + y * (bytesPerLine c + 2) + i]? = (lineBytes c m y)[i]? := by
  have hlt : y * (bytesPerLine c + 2) + i < nativeHeight c * (bytesPerLine c + 2) := by
    calc y * (bytesPerLine c + 2) + i < y * (bytesPerLine c + 2) + (bytesPerLine c + 2) := by omega
      _ = (y + 1) * (bytesPerLine c + 2) := by ring
      _ ≤ _ := Nat.mul_le_mul_right _ hy
  have hk : 1 + y * (bytesPerLine c + 2) + i = (y * (bytesPerLine c + 2) + i) + 1 := by omega
  rw [hk, refreshBytes, List.cons_append, List.getElem?_cons_succ,
    List.getElem?_append_left (by rw [length_lines]; exact hlt),
    getElem?_flatMap_range (length_lineBytes c m) _ _ _ hy hi]

theorem refreshBytes_final (c : Config) (v : Bit) (m : Memory) :
    (refreshBytes c v m)[1 + nativeHeight c * (bytesPerLine c + 2)]? = some trailerByte := by
  have hk : 1 + nativeHeight c * (bytesPerLine c + 2) = nativeHeight c * (bytesPerLine c + 2) + 1 := by omega
  rw [hk, refreshBytes, List.cons_append, List.getElem?_cons_succ,
    List.getElem?_append_right (by rw [length_lines]), length_lines, Nat.sub_self]
  rfl

theorem lineBytes_address (c : Config) (m : Memory) (y : Nat) : (lineBytes c m y)[0]? = some (lineByte (y + 1)) := by
  simp [lineBytes]

theorem lineBytes_data (c : Config) (m : Memory) (y : Nat) {j : Nat} (hj : j < bytesPerLine c) :
    (lineBytes c m y)[j + 1]? = some (readByte m (y * bytesPerLine c + j)) := by
  simp only [lineBytes, List.cons_append, List.getElem?_cons_succ]
  rw [List.getElem?_append_left (by simpa using hj)]
  simp [hj]

theorem lineBytes_trailer (c : Config) (m : Memory) (y : Nat) :
    (lineBytes c m y)[bytesPerLine c + 1]? = some trailerByte := by
  simp only [lineBytes, List.cons_append, List.getElem?_cons_succ]
  rw [List.getElem?_append_right (by simp)]
  simp

end Sys2Proof.Machine
end

