-- ==== Sys2Proof/Laws/Memory.lean ====
section
/-! SUPPORT. The framebuffer array: a read after a write, and that every operation keeps the canonical form. -/

namespace Sys2Proof.Machine

/-! ## Reads after writes -/

theorem readByte_of_lt {m : Memory} {a : Nat} (h : ∀ c ∈ m, a < c.1) : readByte m a = unlistedByte := by
  induction m with
  | nil => rfl
  | cons c m ih =>
    obtain ⟨a', b'⟩ := c
    have ha : a < a' := h (a', b') (by simp)
    have hm : ∀ c ∈ m, a < c.1 := fun c hc => h c (by simp [hc])
    simp [readByte, show a' ≠ a by omega, ih hm]

theorem wf_cons {a : Nat} {b : Byte} {m : Memory} :
    Memory.wf ((a, b) :: m) = true ↔ b ≠ unlistedByte ∧ (∀ c ∈ m, a < c.1) ∧ Memory.wf m = true := by
  simp [Memory.wf, and_assoc]

theorem readByte_consCell {m : Memory} {a : Nat} {v : Byte} (h : ∀ c ∈ m, a < c.1) (a' : Nat) :
    readByte (consCell a v m) a' = if a' = a then v else readByte m a' := by
  unfold consCell
  by_cases hv : v = unlistedByte
  · by_cases ha : a' = a
    · subst ha; simp [hv, readByte_of_lt h]
    · simp [hv, ha]
  · by_cases ha : a' = a
    · subst ha; simp [hv, readByte]
    · simp [hv, ha, readByte, Ne.symm ha]

/-- A read after a write: the byte written there, every other byte as before. -/
theorem readByte_writeByte {m : Memory} (h : Memory.wf m = true) (a : Nat) (v : Byte) (a' : Nat) :
    readByte (writeByte m a v) a' = if a' = a then v else readByte m a' := by
  induction m with
  | nil => simpa [writeByte, readByte] using readByte_consCell (m := []) (a := a) (v := v) (by simp) a'
  | cons c m ih =>
    obtain ⟨a₀, b₀⟩ := c
    obtain ⟨_, hlt, hm⟩ := wf_cons.1 h
    unfold writeByte
    split
    · next h₁ =>
      by_cases ha : a' = a
      · subst ha; simp [readByte, show a₀ ≠ a' by omega, ih hm]
      · by_cases h₀ : a₀ = a' <;> simp [readByte, h₀, ha, ih hm]
    · split
      · next h₂ =>
        subst h₂
        rw [readByte_consCell hlt]
        by_cases ha : a' = a₀
        · simp [ha]
        · simp [ha, readByte, Ne.symm ha]
      · next h₁ h₂ =>
        rw [readByte_consCell]
        intro c hc
        rcases List.mem_cons.1 hc with rfl | hc
        · show a < a₀; omega
        · have := hlt c hc; omega

/-! ## The canonical form -/

theorem mem_consCell {c : Host.Cell} {a : Nat} {v : Byte} {m : Memory} (h : c ∈ consCell a v m) :
    c = (a, v) ∨ c ∈ m := by
  unfold consCell at h
  split at h
  · exact .inr h
  · simpa using h

theorem mem_writeByte {c : Host.Cell} {m : Memory} {a : Nat} {v : Byte} (h : c ∈ writeByte m a v) :
    c = (a, v) ∨ c ∈ m := by
  induction m with
  | nil => exact mem_consCell h
  | cons d m ih =>
    obtain ⟨a₀, b₀⟩ := d
    unfold writeByte at h
    split at h
    · rcases List.mem_cons.1 h with rfl | h
      · exact .inr (by simp)
      · rcases ih h with h | h
        · exact .inl h
        · exact .inr (by simp [h])
    · split at h
      · rcases mem_consCell h with h | h
        · exact .inl h
        · exact .inr (by simp [h])
      · exact mem_consCell h

theorem wf_consCell {a : Nat} {v : Byte} {m : Memory} (hlt : ∀ c ∈ m, a < c.1) (h : Memory.wf m = true) :
    Memory.wf (consCell a v m) = true := by
  unfold consCell
  split
  · exact h
  · next hv => exact wf_cons.2 ⟨hv, hlt, h⟩

/-- A write keeps the canonical form. -/
theorem wf_writeByte {m : Memory} (h : Memory.wf m = true) (a : Nat) (v : Byte) :
    Memory.wf (writeByte m a v) = true := by
  induction m with
  | nil => exact wf_consCell (by simp) rfl
  | cons c m ih =>
    obtain ⟨a₀, b₀⟩ := c
    obtain ⟨hb, hlt, hm⟩ := wf_cons.1 h
    unfold writeByte
    split
    · next h₁ =>
      refine wf_cons.2 ⟨hb, fun c hc => ?_, ih hm⟩
      rcases mem_writeByte hc with rfl | hc
      · exact h₁
      · exact hlt c hc
    · split
      · next h₂ => subst h₂; exact wf_consCell hlt hm
      · next h₁ h₂ =>
        refine wf_consCell (fun c hc => ?_) h
        rcases List.mem_cons.1 hc with rfl | hc
        · show a < a₀; omega
        · have := hlt c hc; omega

/-- Two memories in canonical form that read alike are the same list. -/
theorem Memory.ext_of_wf {m m' : Memory} (h : Memory.wf m = true) (h' : Memory.wf m' = true)
    (hr : ∀ a, readByte m a = readByte m' a) : m = m' := by
  induction m generalizing m' with
  | nil =>
    cases m' with
    | nil => rfl
    | cons c m' =>
      obtain ⟨a, b⟩ := c
      have := hr a
      simp only [readByte, if_true] at this
      exact absurd this.symm (wf_cons.1 h').1
  | cons c m ih =>
    obtain ⟨a, b⟩ := c
    obtain ⟨hb, hlt, hm⟩ := wf_cons.1 h
    cases m' with
    | nil =>
      have := hr a
      simp only [readByte, if_true] at this
      exact absurd this hb
    | cons c' m' =>
      obtain ⟨a', b'⟩ := c'
      obtain ⟨hb', hlt', hm'⟩ := wf_cons.1 h'
      have haa : a = a' := by
        rcases Nat.lt_trichotomy a a' with hl | he | hl
        · have := hr a
          rw [readByte_of_lt (m := (a', b') :: m')] at this
          · simp only [readByte, if_true] at this; exact absurd this hb
          · intro c hc
            rcases List.mem_cons.1 hc with rfl | hc
            · exact hl
            · have := hlt' c hc; omega
        · exact he
        · have := hr a'
          rw [readByte_of_lt (m := (a, b) :: m)] at this
          · simp only [readByte, if_true] at this; exact absurd this.symm hb'
          · intro c hc
            rcases List.mem_cons.1 hc with rfl | hc
            · exact hl
            · have := hlt c hc; omega
      subst haa
      have hbb : b = b' := by simpa [readByte] using hr a
      subst hbb
      have : m = m' := ih hm hm' fun x => by
        by_cases hx : a = x
        · subst hx; rw [readByte_of_lt hlt, readByte_of_lt hlt']
        · simpa [readByte, hx] using hr x
      rw [this]

/-! ## Filling and loading -/

theorem wf_fillBlank {m : Memory} (h : Memory.wf m = true) (n : Nat) : Memory.wf (fillBlank n m) = true := by
  induction n with
  | zero => exact h
  | succ n ih => exact wf_writeByte ih n blankByte

/-- The fill: every index below `n` reads 0xFF, every other as before (R92). -/
theorem readByte_fillBlank {m : Memory} (h : Memory.wf m = true) (n a : Nat) :
    readByte (fillBlank n m) a = if a < n then blankByte else readByte m a := by
  induction n with
  | zero => simp [fillBlank]
  | succ n ih =>
    rw [fillBlank, readByte_writeByte (wf_fillBlank h n), ih]
    by_cases h₁ : a = n
    · simp [h₁]
    · simp [h₁, show (a < n + 1) = (a < n) by simp; omega]

theorem mem_fillBlank {m : Memory} {n : Nat} {c : Host.Cell} (h : c ∈ fillBlank n m) : c.1 < n ∨ c ∈ m := by
  induction n with
  | zero => exact .inr h
  | succ n ih =>
    rcases mem_writeByte h with rfl | h
    · exact .inl (Nat.lt_succ_self n)
    · rcases ih h with h | h
      · exact .inl (by omega)
      · exact .inr h

theorem wf_loadBytes {m : Memory} (h : Memory.wf m = true) (n : Nat) (bs : List Byte) (a : Nat) :
    Memory.wf (loadBytes n bs a m) = true := by
  induction n generalizing bs a m with
  | zero => exact h
  | succ n ih =>
    cases bs with
    | nil => exact h
    | cons b bs => exact ih (wf_writeByte h a b) bs (a + 1)

theorem mem_loadBytes {m : Memory} {n : Nat} {bs : List Byte} {a : Nat} {c : Host.Cell}
    (h : c ∈ loadBytes n bs a m) : c.1 < a + n ∨ c ∈ m := by
  induction n generalizing bs a m with
  | zero => exact .inr h
  | succ n ih =>
    cases bs with
    | nil => exact .inr h
    | cons b bs =>
      rcases ih h with h | h
      · exact .inl (by omega)
      · rcases mem_writeByte h with rfl | h
        · exact .inl (by show a < a + (n + 1); omega)
        · exact .inr h

/-- The loaded array: byte `i` of the list at index `a + i`, as far as `n` bytes go; every other index as before. -/
theorem readByte_loadBytes {m : Memory} (h : Memory.wf m = true) (n : Nat) (bs : List Byte) (a x : Nat) :
    readByte (loadBytes n bs a m) x =
      if a ≤ x ∧ x < a + n then (bs[x - a]?).getD (readByte m x) else readByte m x := by
  induction n generalizing bs a m with
  | zero => rw [loadBytes, if_neg (by omega)]
  | succ n ih =>
    cases bs with
    | nil => simp [loadBytes]
    | cons b bs =>
      rw [loadBytes, ih (wf_writeByte h a b), readByte_writeByte h]
      by_cases hx : x = a
      · subst hx; simp
      · by_cases h₁ : a + 1 ≤ x ∧ x < a + 1 + n
        · have h₂ : x - a = (x - (a + 1)) + 1 := by omega
          rw [if_pos h₁, if_neg hx, if_pos (by omega), h₂, List.getElem?_cons_succ]
        · rw [if_neg h₁, if_neg hx, if_neg (by omega)]

end Sys2Proof.Machine
end

