-- ==== Sys2Proof/Laws/State.lean ====
section
/-! SUPPORT. What each update of the state does to each field, once: every lemma is true by rfl. -/

namespace Sys2Proof.Machine

/-! ### respond -/

@[simp] theorem respond_cfg (r : Response) (s : State) : (respond r s).cfg = s.cfg := rfl
@[simp] theorem respond_fb (r : Response) (s : State) : (respond r s).fb = s.fb := rfl
@[simp] theorem respond_rot (r : Response) (s : State) : (respond r s).rot = s.rot := rfl
@[simp] theorem respond_vcom (r : Response) (s : State) : (respond r s).vcom = s.vcom := rfl
@[simp] theorem respond_sel (r : Response) (s : State) : (respond r s).sel = s.sel := rfl
@[simp] theorem respond_fault (r : Response) (s : State) : (respond r s).fault = s.fault := rfl
@[simp] theorem respond_byteIndex (r : Response) (s : State) : (respond r s).byteIndex = s.byteIndex := rfl
@[simp] theorem respond_prevLine (r : Response) (s : State) : (respond r s).prevLine = s.prevLine := rfl
@[simp] theorem respond_pos (r : Response) (s : State) : (respond r s).pos = s.pos := rfl
@[simp] theorem respond_callPos (r : Response) (s : State) : (respond r s).callPos = s.callPos := rfl
@[simp] theorem respond_busLog (r : Response) (s : State) : (respond r s).busLog = s.busLog := rfl
@[simp] theorem respond_responses (r : Response) (s : State) : (respond r s).responses = s.responses ++ [r] := rfl
@[simp] theorem respond_schedule (r : Response) (s : State) : (respond r s).schedule = s.schedule := rfl
@[simp] theorem respond_answers (r : Response) (s : State) : (respond r s).answers = s.answers := rfl
@[simp] theorem respond_draws (r : Response) (s : State) : (respond r s).draws = s.draws := rfl

/-! ### raiseFault -/

@[simp] theorem raiseFault_cfg (f : FaultRecord) (s : State) : (raiseFault f s).cfg = s.cfg := rfl
@[simp] theorem raiseFault_fb (f : FaultRecord) (s : State) : (raiseFault f s).fb = s.fb := rfl
@[simp] theorem raiseFault_rot (f : FaultRecord) (s : State) : (raiseFault f s).rot = s.rot := rfl
@[simp] theorem raiseFault_vcom (f : FaultRecord) (s : State) : (raiseFault f s).vcom = s.vcom := rfl
@[simp] theorem raiseFault_sel (f : FaultRecord) (s : State) : (raiseFault f s).sel = s.sel := rfl
@[simp] theorem raiseFault_fault (f : FaultRecord) (s : State) : (raiseFault f s).fault = stickyFault s.fault f := rfl
@[simp] theorem raiseFault_byteIndex (f : FaultRecord) (s : State) : (raiseFault f s).byteIndex = s.byteIndex := rfl
@[simp] theorem raiseFault_prevLine (f : FaultRecord) (s : State) : (raiseFault f s).prevLine = s.prevLine := rfl
@[simp] theorem raiseFault_pos (f : FaultRecord) (s : State) : (raiseFault f s).pos = s.pos := rfl
@[simp] theorem raiseFault_callPos (f : FaultRecord) (s : State) : (raiseFault f s).callPos = s.callPos := rfl
@[simp] theorem raiseFault_busLog (f : FaultRecord) (s : State) : (raiseFault f s).busLog = s.busLog := rfl
@[simp] theorem raiseFault_responses (f : FaultRecord) (s : State) : (raiseFault f s).responses = s.responses ++ [.fault (faultCode f)] := rfl
@[simp] theorem raiseFault_schedule (f : FaultRecord) (s : State) : (raiseFault f s).schedule = s.schedule := rfl
@[simp] theorem raiseFault_answers (f : FaultRecord) (s : State) : (raiseFault f s).answers = s.answers := rfl
@[simp] theorem raiseFault_draws (f : FaultRecord) (s : State) : (raiseFault f s).draws = s.draws := rfl

/-! ### failCall -/

@[simp] theorem failCall_cfg (s : State) : (failCall s).cfg = s.cfg := rfl
@[simp] theorem failCall_fb (s : State) : (failCall s).fb = s.fb := rfl
@[simp] theorem failCall_rot (s : State) : (failCall s).rot = s.rot := rfl
@[simp] theorem failCall_vcom (s : State) : (failCall s).vcom = s.vcom := rfl
@[simp] theorem failCall_sel (s : State) : (failCall s).sel = s.sel := rfl
@[simp] theorem failCall_fault (s : State) :
    (failCall s).fault = stickyFault s.fault (.transportFault s.callPos) := rfl
@[simp] theorem failCall_byteIndex (s : State) : (failCall s).byteIndex = s.byteIndex := rfl
@[simp] theorem failCall_prevLine (s : State) : (failCall s).prevLine = s.prevLine := rfl
@[simp] theorem failCall_pos (s : State) : (failCall s).pos = .stopped := rfl
@[simp] theorem failCall_callPos (s : State) : (failCall s).callPos = s.callPos := rfl
@[simp] theorem failCall_busLog (s : State) : (failCall s).busLog = s.busLog := rfl
@[simp] theorem failCall_responses (s : State) : (failCall s).responses = s.responses ++ [.fault 3] := rfl
@[simp] theorem failCall_schedule (s : State) : (failCall s).schedule = s.schedule := rfl
@[simp] theorem failCall_answers (s : State) : (failCall s).answers = s.answers.tail := rfl
@[simp] theorem failCall_draws (s : State) : (failCall s).draws = s.draws + 1 := rfl
@[simp] theorem failCall_trace (s : State) : (failCall s).trace = s.trace := rfl

/-! ### setFbBit -/

@[simp] theorem setFbBit_cfg (v : Bit) (p : Int × Int) (s : State) : (setFbBit v p s).cfg = s.cfg := rfl
@[simp] theorem setFbBit_fb (v : Bit) (p : Int × Int) (s : State) : (setFbBit v p s).fb = writeByte s.fb (byteIndexOf s.cfg p)
      (putBit (readByte s.fb (byteIndexOf s.cfg p)) (bitPositionOf p) v) := rfl
@[simp] theorem setFbBit_rot (v : Bit) (p : Int × Int) (s : State) : (setFbBit v p s).rot = s.rot := rfl
@[simp] theorem setFbBit_vcom (v : Bit) (p : Int × Int) (s : State) : (setFbBit v p s).vcom = s.vcom := rfl
@[simp] theorem setFbBit_sel (v : Bit) (p : Int × Int) (s : State) : (setFbBit v p s).sel = s.sel := rfl
@[simp] theorem setFbBit_fault (v : Bit) (p : Int × Int) (s : State) : (setFbBit v p s).fault = s.fault := rfl
@[simp] theorem setFbBit_byteIndex (v : Bit) (p : Int × Int) (s : State) : (setFbBit v p s).byteIndex = s.byteIndex := rfl
@[simp] theorem setFbBit_prevLine (v : Bit) (p : Int × Int) (s : State) : (setFbBit v p s).prevLine = s.prevLine := rfl
@[simp] theorem setFbBit_pos (v : Bit) (p : Int × Int) (s : State) : (setFbBit v p s).pos = s.pos := rfl
@[simp] theorem setFbBit_callPos (v : Bit) (p : Int × Int) (s : State) : (setFbBit v p s).callPos = s.callPos := rfl
@[simp] theorem setFbBit_busLog (v : Bit) (p : Int × Int) (s : State) : (setFbBit v p s).busLog = s.busLog := rfl
@[simp] theorem setFbBit_responses (v : Bit) (p : Int × Int) (s : State) : (setFbBit v p s).responses = s.responses := rfl
@[simp] theorem setFbBit_schedule (v : Bit) (p : Int × Int) (s : State) : (setFbBit v p s).schedule = s.schedule := rfl
@[simp] theorem setFbBit_answers (v : Bit) (p : Int × Int) (s : State) : (setFbBit v p s).answers = s.answers := rfl
@[simp] theorem setFbBit_draws (v : Bit) (p : Int × Int) (s : State) : (setFbBit v p s).draws = s.draws := rfl

/-! ### blankBuffer -/

@[simp] theorem blankBuffer_cfg (s : State) : (blankBuffer s).cfg = s.cfg := rfl
@[simp] theorem blankBuffer_fb (s : State) : (blankBuffer s).fb = fillBlank (bufferBytes s.cfg) s.fb := rfl
@[simp] theorem blankBuffer_rot (s : State) : (blankBuffer s).rot = s.rot := rfl
@[simp] theorem blankBuffer_vcom (s : State) : (blankBuffer s).vcom = s.vcom := rfl
@[simp] theorem blankBuffer_sel (s : State) : (blankBuffer s).sel = s.sel := rfl
@[simp] theorem blankBuffer_fault (s : State) : (blankBuffer s).fault = s.fault := rfl
@[simp] theorem blankBuffer_byteIndex (s : State) : (blankBuffer s).byteIndex = s.byteIndex := rfl
@[simp] theorem blankBuffer_prevLine (s : State) : (blankBuffer s).prevLine = s.prevLine := rfl
@[simp] theorem blankBuffer_pos (s : State) : (blankBuffer s).pos = s.pos := rfl
@[simp] theorem blankBuffer_callPos (s : State) : (blankBuffer s).callPos = s.callPos := rfl
@[simp] theorem blankBuffer_busLog (s : State) : (blankBuffer s).busLog = s.busLog := rfl
@[simp] theorem blankBuffer_responses (s : State) : (blankBuffer s).responses = s.responses := rfl
@[simp] theorem blankBuffer_schedule (s : State) : (blankBuffer s).schedule = s.schedule := rfl
@[simp] theorem blankBuffer_answers (s : State) : (blankBuffer s).answers = s.answers := rfl
@[simp] theorem blankBuffer_draws (s : State) : (blankBuffer s).draws = s.draws := rfl

/-! ### useAnswer -/

@[simp] theorem useAnswer_cfg (s : State) : (useAnswer s).cfg = s.cfg := rfl
@[simp] theorem useAnswer_fb (s : State) : (useAnswer s).fb = s.fb := rfl
@[simp] theorem useAnswer_rot (s : State) : (useAnswer s).rot = s.rot := rfl
@[simp] theorem useAnswer_vcom (s : State) : (useAnswer s).vcom = s.vcom := rfl
@[simp] theorem useAnswer_sel (s : State) : (useAnswer s).sel = s.sel := rfl
@[simp] theorem useAnswer_fault (s : State) : (useAnswer s).fault = s.fault := rfl
@[simp] theorem useAnswer_byteIndex (s : State) : (useAnswer s).byteIndex = s.byteIndex := rfl
@[simp] theorem useAnswer_prevLine (s : State) : (useAnswer s).prevLine = s.prevLine := rfl
@[simp] theorem useAnswer_pos (s : State) : (useAnswer s).pos = s.pos := rfl
@[simp] theorem useAnswer_callPos (s : State) : (useAnswer s).callPos = s.callPos := rfl
@[simp] theorem useAnswer_busLog (s : State) : (useAnswer s).busLog = s.busLog := rfl
@[simp] theorem useAnswer_responses (s : State) : (useAnswer s).responses = s.responses := rfl
@[simp] theorem useAnswer_schedule (s : State) : (useAnswer s).schedule = s.schedule := rfl
@[simp] theorem useAnswer_answers (s : State) : (useAnswer s).answers = s.answers.tail := rfl
@[simp] theorem useAnswer_draws (s : State) : (useAnswer s).draws = s.draws + 1 := rfl

/-! ### recordCall -/

@[simp] theorem recordCall_cfg (e : BusEvent) (s : State) : (recordCall e s).cfg = s.cfg := rfl
@[simp] theorem recordCall_fb (e : BusEvent) (s : State) : (recordCall e s).fb = s.fb := rfl
@[simp] theorem recordCall_rot (e : BusEvent) (s : State) : (recordCall e s).rot = s.rot := rfl
@[simp] theorem recordCall_vcom (e : BusEvent) (s : State) : (recordCall e s).vcom = s.vcom := rfl
@[simp] theorem recordCall_sel (e : BusEvent) (s : State) : (recordCall e s).sel = s.sel := rfl
@[simp] theorem recordCall_fault (e : BusEvent) (s : State) : (recordCall e s).fault = s.fault := rfl
@[simp] theorem recordCall_byteIndex (e : BusEvent) (s : State) : (recordCall e s).byteIndex = s.byteIndex := rfl
@[simp] theorem recordCall_prevLine (e : BusEvent) (s : State) : (recordCall e s).prevLine = s.prevLine := rfl
@[simp] theorem recordCall_pos (e : BusEvent) (s : State) : (recordCall e s).pos = s.pos := rfl
@[simp] theorem recordCall_callPos (e : BusEvent) (s : State) : (recordCall e s).callPos = s.callPos + 1 := rfl
@[simp] theorem recordCall_busLog (e : BusEvent) (s : State) : (recordCall e s).busLog = e :: s.busLog := rfl
@[simp] theorem recordCall_responses (e : BusEvent) (s : State) : (recordCall e s).responses = s.responses := rfl
@[simp] theorem recordCall_schedule (e : BusEvent) (s : State) : (recordCall e s).schedule = s.schedule := rfl
@[simp] theorem recordCall_answers (e : BusEvent) (s : State) : (recordCall e s).answers = s.answers := rfl
@[simp] theorem recordCall_draws (e : BusEvent) (s : State) : (recordCall e s).draws = s.draws := rfl

/-! ### loopHead -/

@[simp] theorem loopHead_cfg (i : Nat) (s : State) : (loopHead i s).cfg = s.cfg := rfl
@[simp] theorem loopHead_fb (i : Nat) (s : State) : (loopHead i s).fb = s.fb := rfl
@[simp] theorem loopHead_rot (i : Nat) (s : State) : (loopHead i s).rot = s.rot := rfl
@[simp] theorem loopHead_vcom (i : Nat) (s : State) : (loopHead i s).vcom = s.vcom := rfl
@[simp] theorem loopHead_sel (i : Nat) (s : State) : (loopHead i s).sel = s.sel := rfl
@[simp] theorem loopHead_fault (i : Nat) (s : State) : (loopHead i s).fault = s.fault := rfl
@[simp] theorem loopHead_byteIndex (i : Nat) (s : State) : (loopHead i s).byteIndex = i := rfl
@[simp] theorem loopHead_prevLine (i : Nat) (s : State) : (loopHead i s).prevLine = s.prevLine := rfl
@[simp] theorem loopHead_pos (i : Nat) (s : State) : (loopHead i s).pos = if i < bufferBytes s.cfg then .data else .finalTrailer := rfl
@[simp] theorem loopHead_callPos (i : Nat) (s : State) : (loopHead i s).callPos = s.callPos := rfl
@[simp] theorem loopHead_busLog (i : Nat) (s : State) : (loopHead i s).busLog = s.busLog := rfl
@[simp] theorem loopHead_responses (i : Nat) (s : State) : (loopHead i s).responses = s.responses := rfl
@[simp] theorem loopHead_schedule (i : Nat) (s : State) : (loopHead i s).schedule = s.schedule := rfl
@[simp] theorem loopHead_answers (i : Nat) (s : State) : (loopHead i s).answers = s.answers := rfl
@[simp] theorem loopHead_draws (i : Nat) (s : State) : (loopHead i s).draws = s.draws := rfl

/-! ### nextTurn -/

@[simp] theorem nextTurn_cfg (s : State) : (nextTurn s).cfg = s.cfg := rfl
@[simp] theorem nextTurn_fb (s : State) : (nextTurn s).fb = s.fb := rfl
@[simp] theorem nextTurn_rot (s : State) : (nextTurn s).rot = s.rot := rfl
@[simp] theorem nextTurn_vcom (s : State) : (nextTurn s).vcom = s.vcom := rfl
@[simp] theorem nextTurn_sel (s : State) : (nextTurn s).sel = s.sel := rfl
@[simp] theorem nextTurn_fault (s : State) : (nextTurn s).fault = s.fault := rfl
@[simp] theorem nextTurn_byteIndex (s : State) : (nextTurn s).byteIndex = s.byteIndex + 1 := rfl
@[simp] theorem nextTurn_prevLine (s : State) : (nextTurn s).prevLine = currentLine s := rfl
@[simp] theorem nextTurn_pos (s : State) : (nextTurn s).pos = if s.byteIndex + 1 < bufferBytes s.cfg then .data else .finalTrailer := rfl
@[simp] theorem nextTurn_callPos (s : State) : (nextTurn s).callPos = s.callPos := rfl
@[simp] theorem nextTurn_busLog (s : State) : (nextTurn s).busLog = s.busLog := rfl
@[simp] theorem nextTurn_responses (s : State) : (nextTurn s).responses = s.responses := rfl
@[simp] theorem nextTurn_schedule (s : State) : (nextTurn s).schedule = s.schedule := rfl
@[simp] theorem nextTurn_answers (s : State) : (nextTurn s).answers = s.answers := rfl
@[simp] theorem nextTurn_draws (s : State) : (nextTurn s).draws = s.draws := rfl

/-! ### The trace, read oldest first -/

@[simp] theorem respond_trace (r : Response) (s : State) : (respond r s).trace = s.trace := rfl
@[simp] theorem raiseFault_trace (f : FaultRecord) (s : State) : (raiseFault f s).trace = s.trace := rfl
@[simp] theorem setFbBit_trace (v : Bit) (p : Int × Int) (s : State) : (setFbBit v p s).trace = s.trace := rfl
@[simp] theorem blankBuffer_trace (s : State) : (blankBuffer s).trace = s.trace := rfl
@[simp] theorem useAnswer_trace (s : State) : (useAnswer s).trace = s.trace := rfl
@[simp] theorem loopHead_trace (i : Nat) (s : State) : (loopHead i s).trace = s.trace := rfl
@[simp] theorem nextTurn_trace (s : State) : (nextTurn s).trace = s.trace := rfl

@[simp] theorem recordCall_trace (e : BusEvent) (s : State) : (recordCall e s).trace = s.trace ++ [e] := by
  simp [State.trace]

theorem respondSticky_eq (s : State) : respondSticky s = respond (.fault (faultCode s.fault)) s := rfl

end Sys2Proof.Machine
end

