-- ==== Sys2Proof/Laws/Ops.lean ====
section
/-! SUPPORT. What each shared operation can do, once: the dispatch checks (R130), a transport call (R100, R104). -/

namespace Sys2Proof.Machine

/-! ## The fault register -/

@[simp] theorem stickyFault_noFault (f : FaultRecord) : stickyFault .noFault f = f := rfl

/-- A recorded fault never changes (R27). -/
theorem stickyFault_recorded {g : FaultRecord} (h : g ≠ .noFault) (f : FaultRecord) : stickyFault g f = g := by
  simp [stickyFault, h]

/-- Raising a fault leaves one recorded. -/
theorem stickyFault_ne (g : FaultRecord) {f : FaultRecord} (h : f ≠ .noFault) : stickyFault g f ≠ .noFault := by
  unfold stickyFault
  split
  · exact h
  · assumption

theorem failCall_faulted (s : State) : (failCall s).fault ≠ .noFault := stickyFault_ne _ (by simp)

/-- The first fault raised is recorded as it is (R146). -/
theorem raiseFault_first {s : State} (h : s.fault = .noFault) (f : FaultRecord) :
    raiseFault f s = respond (.fault (faultCode f)) { s with fault := f } := by
  rw [raiseFault, h, stickyFault_noFault]

/-! ## Dispatch -/

theorem dispatch_ready {s : State} (h : Ready s) (op : BitVec 4) (body : State → State) :
    dispatch op body s = .next (body s) := by
  obtain ⟨h₁, h₂, h₃⟩ := h
  simp [dispatch, h₁, h₂, h₃]

theorem dispatch_sticky {s : State} (h : s.fault ≠ .noFault) (op : BitVec 4) (body : State → State) :
    dispatch op body s = .next (respondSticky s) := by
  simp [dispatch, h]

theorem dispatch_overlap {s : State} (h₁ : s.fault = .noFault) (h₂ : configOK s.cfg = true)
    (h₃ : s.sel = .asserted) (op : BitVec 4) (body : State → State) :
    dispatch op body s = .next (raiseFault (.txnOverlap op) s) := by
  simp [dispatch, h₁, h₂, h₃]

theorem not_asserted {s : State} (h : s.sel ≠ .asserted) : s.sel = .deasserted := by
  cases hs : s.sel
  · rfl
  · exact absurd hs h

/-- Everything a dispatched command can do when it answers a next state. -/
theorem dispatch_cases {op : BitVec 4} {body : State → State} {s t : State}
    (h : dispatch op body s = .next t) :
    (s.fault ≠ .noFault ∧ t = respondSticky s) ∨
    (s.fault = .noFault ∧ configOK s.cfg = true ∧ s.sel = .asserted ∧ t = raiseFault (.txnOverlap op) s) ∨
    (Ready s ∧ t = body s) := by
  unfold dispatch at h
  split at h
  · next h₁ => exact .inl ⟨h₁, by cases h; rfl⟩
  · next h₁ =>
    have h₁ : s.fault = .noFault := by simpa using h₁
    split at h
    · cases h
    · next h₂ =>
      have h₂ : configOK s.cfg = true := by simpa using h₂
      split at h
      · next h₃ => exact .inr (.inl ⟨h₁, h₂, h₃, by cases h; rfl⟩)
      · next h₃ => exact .inr (.inr ⟨⟨h₁, h₂, not_asserted h₃⟩, by cases h; rfl⟩)

theorem dispatch_ne_refused (op : BitVec 4) (body : State → State) (s : State) (r : Refusal) :
    dispatch op body s ≠ .refused r := by
  unfold dispatch
  repeat' split
  all_goals simp

/-- A dispatched command stops in one case only: a malformed configuration with no fault recorded. -/
theorem dispatch_fault {op : BitVec 4} {body : State → State} {s : State} {f : Fault}
    (h : dispatch op body s = .fault f) :
    f = .malformedConfig ∧ s.fault = .noFault ∧ configOK s.cfg = false := by
  unfold dispatch at h
  split at h
  · cases h
  · next h₁ =>
    split at h
    · next h₂ => exact ⟨by cases h; rfl, by simpa using h₁, h₂⟩
    · split at h <;> cases h

/-! ## A transport call -/

theorem emit_ok {s : State} {b : Byte} (h : nextAnswer s = .ok b) (e : BusEvent) (f : State → State) :
    emit e f s = f (recordCall e (useAnswer s)) := by
  simp [emit, h]

theorem emit_failed {s : State} (h : nextAnswer s = .failed) (e : BusEvent) (f : State → State) :
    emit e f s = failCall s := by
  simp [emit, h]

/-- A call succeeds or fails. -/
theorem nextAnswer_cases (s : State) : (∃ b, nextAnswer s = .ok b) ∨ nextAnswer s = .failed := by
  cases h : nextAnswer s
  · exact .inl ⟨_, rfl⟩
  · exact .inr rfl

theorem nextAnswer_of_succeed {n : Nat} {s : State} (h : CallsSucceed (n + 1) s) :
    ∃ b, nextAnswer s = .ok b := by
  rcases nextAnswer_cases s with hb | hf
  · exact hb
  · exfalso
    unfold nextAnswer at hf
    unfold CallsSucceed at h
    cases ha : s.answers with
    | nil => rw [ha] at hf; cases hf
    | cons a as =>
      rw [ha] at hf h
      exact h a (by simp) hf

theorem succeed_useAnswer {n : Nat} {s : State} (h : CallsSucceed (n + 1) s) : CallsSucceed n (useAnswer s) := by
  unfold CallsSucceed at *
  cases ha : s.answers with
  | nil => simp [ha]
  | cons a as =>
    intro x hx
    rw [ha] at h
    simp only [useAnswer_answers, ha, List.tail_cons] at hx
    exact h x (by simp [hx])

theorem succeed_mono {m n : Nat} {s : State} (h : CallsSucceed n s) (hmn : m ≤ n) : CallsSucceed m s :=
  fun a ha => h a (List.take_subset_take_left _ hmn ha)

theorem nextAnswer_of_failsAt_zero {s : State} (h : FailsAt 0 s) : nextAnswer s = .failed := by
  have h := h.2
  unfold nextAnswer
  cases ha : s.answers with
  | nil => rw [ha] at h; cases h
  | cons a as => rw [ha] at h; simpa using h

theorem failsAt_useAnswer {k : Nat} {s : State} (h : FailsAt (k + 1) s) : FailsAt k (useAnswer s) := by
  refine ⟨succeed_useAnswer h.1, ?_⟩
  have h := h.2
  cases ha : s.answers with
  | nil => rw [ha] at h; cases h
  | cons a as => rw [ha] at h; simpa [ha] using h

end Sys2Proof.Machine
end

