-- ==== Sys2Proof/Laws/Encoder.lean ====
section
/-! SUPPORT. The transaction machine, once: what a call that succeeds and a call that fails do at each position, and
from that what a run of calls does. -/

namespace Sys2Proof.Machine

/-! ## What a transmitted byte leaves alone -/

section
variable (s : State)

/-- A transmitted byte changes `vcom`, `pos` and the loop variables at most. -/
theorem afterTx_shape : ∃ v p i l, afterTx s = { s with vcom := v, pos := p, byteIndex := i, prevLine := l } := by
  unfold afterTx
  repeat' split
  all_goals exact ⟨_, _, _, _, rfl⟩

theorem afterTx_fields : (afterTx s).cfg = s.cfg ∧ (afterTx s).fb = s.fb ∧ (afterTx s).rot = s.rot ∧
    (afterTx s).sel = s.sel ∧ (afterTx s).fault = s.fault ∧ (afterTx s).callPos = s.callPos ∧
    (afterTx s).busLog = s.busLog ∧ (afterTx s).responses = s.responses ∧ (afterTx s).schedule = s.schedule ∧
    (afterTx s).answers = s.answers ∧ (afterTx s).draws = s.draws := by
  obtain ⟨v, p, i, l, h⟩ := afterTx_shape s
  simp [h]

@[simp] theorem afterTx_cfg : (afterTx s).cfg = s.cfg := (afterTx_fields s).1
@[simp] theorem afterTx_fb : (afterTx s).fb = s.fb := (afterTx_fields s).2.1
@[simp] theorem afterTx_rot : (afterTx s).rot = s.rot := (afterTx_fields s).2.2.1
@[simp] theorem afterTx_sel : (afterTx s).sel = s.sel := (afterTx_fields s).2.2.2.1
@[simp] theorem afterTx_fault : (afterTx s).fault = s.fault := (afterTx_fields s).2.2.2.2.1
@[simp] theorem afterTx_callPos : (afterTx s).callPos = s.callPos := (afterTx_fields s).2.2.2.2.2.1
@[simp] theorem afterTx_busLog : (afterTx s).busLog = s.busLog := (afterTx_fields s).2.2.2.2.2.2.1
@[simp] theorem afterTx_responses : (afterTx s).responses = s.responses := (afterTx_fields s).2.2.2.2.2.2.2.1
@[simp] theorem afterTx_schedule : (afterTx s).schedule = s.schedule := (afterTx_fields s).2.2.2.2.2.2.2.2.1
@[simp] theorem afterTx_answers : (afterTx s).answers = s.answers := (afterTx_fields s).2.2.2.2.2.2.2.2.2.1
@[simp] theorem afterTx_draws : (afterTx s).draws = s.draws := (afterTx_fields s).2.2.2.2.2.2.2.2.2.2
@[simp] theorem afterTx_trace : (afterTx s).trace = s.trace := by simp [State.trace]

end

/-! ## One call -/

/-- A position from which a transport call is next. -/
def HasCall (p : EncoderPos) : Prop := p ≠ .idle ∧ p ≠ .stopped

@[simp] theorem hasCall_iff (p : EncoderPos) : HasCall p ↔ p ≠ .idle ∧ p ≠ .stopped := Iff.rfl

/-- A position at which the next call is `Tx`. -/
def txPos : EncoderPos → Bool
  | .idle | .clearDeassert | .refreshDeassert | .stopped => false
  | .clearCommand | .clearTrailer | .refreshCommand | .firstAddress | .data | .lineTrailer | .lineAddress
  | .finalTrailer => true

/-- The byte of the encoder's next `Tx` call. -/
def nextByte (s : State) : Byte :=
  match s.pos with
  | .clearCommand => clearCommandByte s.vcom
  | .refreshCommand => writeCommandByte s.vcom
  | .firstAddress => lineByte 1
  | .data => readByte s.fb s.byteIndex
  | .lineAddress => lineByte (currentLine s)
  | .clearTrailer | .lineTrailer | .finalTrailer | .idle | .clearDeassert | .refreshDeassert | .stopped =>
    trailerByte

theorem encoderStep_eq_sendTx {s : State} (h : txPos s.pos = true) : encoderStep s = sendTx (nextByte s) s := by
  unfold encoderStep nextByte
  cases hp : s.pos <;> simp_all [txPos]

theorem encoderStep_idle {s : State} (h : s.pos = .idle) : encoderStep s = s := by
  rw [encoderStep, h]

theorem encoderStep_stopped {s : State} (h : s.pos = .stopped) : encoderStep s = s := by
  rw [encoderStep, h]

/-- With no call next nothing happens. -/
theorem encoderStep_none {s : State} (h : ¬ HasCall s.pos) : encoderStep s = s := by
  by_cases hi : s.pos = .idle
  · exact encoderStep_idle hi
  · exact encoderStep_stopped (not_not.1 fun hs => h ⟨hi, hs⟩)

theorem encoderStep_clearDeassert {s : State} (h : s.pos = .clearDeassert) : encoderStep s = endClear s := by
  rw [encoderStep, h]

theorem encoderStep_refreshDeassert {s : State} (h : s.pos = .refreshDeassert) : encoderStep s = endRefresh s := by
  rw [encoderStep, h]

/-- The wire item at the encoder's position is the byte it sends next. -/
theorem wireItemAt_encode {s : State} {i : Instr} (h : wireItemAt s = some i) :
    txPos s.pos = true ∧ encode i = .wire (nextByte s) := by
  unfold wireItemAt at h
  cases hp : s.pos <;> rw [hp] at h <;> simp only [reduceCtorEq] at h
  case data =>
    split at h <;> cases h
    exact ⟨rfl, by simp [encode, nextByte, hp]⟩
  all_goals
    cases h
    exact ⟨rfl, by simp [encode, nextByte, hp]⟩

/-- A call that fails: TransportFault(k), and every register as it was (R104). -/
theorem encoderStep_failed {s : State} (h : nextAnswer s = .failed) (hp : HasCall s.pos) :
    encoderStep s = failCall s := by
  unfold encoderStep
  cases hpos : s.pos <;>
    simp_all [sendTx, endClear, endRefresh, closeTransaction, emit_failed h]

/-- A byte that was sent: what the call and the updates after it do. -/
theorem encoderStep_sent {s : State} {b : Byte} (h : nextAnswer s = .ok b) (hp : txPos s.pos = true) :
    encoderStep s = afterTx (recordCall (.tx (nextByte s)) (useAnswer s)) := by
  rw [encoderStep_eq_sendTx hp, sendTx, emit_ok h]

/-- The successors of the encoder's position keep its invariant and its frame (R108, R112 to R116). -/
theorem afterTx_keeps {s : State} {e : BusEvent} (hc : configOK s.cfg = true) (hi : EncoderInv s)
    (hp : txPos s.pos = true) :
    let t := afterTx (recordCall e (useAnswer s))
    EncoderInv t ∧ HasCall t.pos ∧ currentFrame t = currentFrame s ∧ frameVcom t = frameVcom s := by
  have hB := bytesPerLine_pos hc
  have hH := height_pos hc
  have hN := bufferBytes_eq hc
  have hflip : ∀ v : Bit, flipPolarity (flipPolarity v) = v := by decide
  have hNpos : 0 < bufferBytes s.cfg := by rw [hN]; exact Nat.mul_pos hH hB
  unfold EncoderInv at hi
  cases hpos : s.pos <;> rw [hpos] at hi hp
  case idle => cases hp
  case clearDeassert => cases hp
  case refreshDeassert => cases hp
  case stopped => cases hp
  case clearCommand =>
    simp [afterTx, hpos, EncoderInv, currentFrame, frameVcom, flippedAt, hi]
  case clearTrailer =>
    simp [afterTx, hpos, EncoderInv, currentFrame, frameVcom, flippedAt, hi, hflip]
  case refreshCommand =>
    simp [afterTx, hpos, EncoderInv, currentFrame, frameVcom, flippedAt, hi, hflip]
  case firstAddress =>
    refine ⟨?_, ?_, ?_, ?_⟩
    · simp only [afterTx, recordCall_pos, useAnswer_pos, hpos, EncoderInv, loopHead, recordCall_cfg, useAnswer_cfg,
        hNpos, if_true]
      exact ⟨hi.1, 0, 0, hH, hB, by simp, rfl, by simp [hi.2]⟩
    · simp [afterTx, hpos, hNpos]
    · simp [afterTx, hpos, currentFrame, loopHead, hNpos, frameVcom, flippedAt]
    · simp [afterTx, hpos, loopHead, hNpos, frameVcom, flippedAt]
  case data =>
    obtain ⟨hs, y, j, hy, hj, hidx, hprev, hcall⟩ := hi
    have hline : (s.byteIndex + 1) / bytesPerLine s.cfg = if j + 1 < bytesPerLine s.cfg then y else y + 1 := by
      split
      · rw [hidx, Nat.add_assoc, Nat.mul_comm, Nat.mul_add_div hB, Nat.div_eq_of_lt ‹_›, Nat.add_zero]
      · have : s.byteIndex + 1 = (y + 1) * bytesPerLine s.cfg := by
          have : j + 1 = bytesPerLine s.cfg := by omega
          rw [hidx, Nat.add_assoc, this]; ring
        rw [this, Nat.mul_div_cancel _ hB]
    have hcur : currentLine (recordCall e (useAnswer s)) = (if j + 1 < bytesPerLine s.cfg then y else y + 1) + 1 := by
      simp [currentLine, hline]
    by_cases hlast : j + 1 < bytesPerLine s.cfg
    · have hlt : s.byteIndex + 1 < bufferBytes s.cfg := by
        rw [hidx, Nat.add_assoc]; exact lineIndex_lt hc hy hlast
      have hat : afterTx (recordCall e (useAnswer s))
          = loopHead (s.byteIndex + 1) (recordCall e (useAnswer s)) := by
        simp [afterTx, hpos, hcur, hlast, hprev]
      rw [hat]
      refine ⟨?_, ?_, ?_, ?_⟩
      · simp only [EncoderInv, loopHead_pos, recordCall_cfg, useAnswer_cfg, hlt, if_true, loopHead_sel,
          recordCall_sel, useAnswer_sel, loopHead_cfg, loopHead_byteIndex, loopHead_prevLine, recordCall_prevLine,
          useAnswer_prevLine, loopHead_callPos, recordCall_callPos, useAnswer_callPos]
        exact ⟨hs, y, j + 1, hy, hlast, by omega, hprev, by omega⟩
      · simp [hlt]
      · simp [currentFrame, hpos, hlt, frameVcom, flippedAt]
      · simp [hpos, hlt, frameVcom, flippedAt]
    · have hat : afterTx (recordCall e (useAnswer s))
          = { recordCall e (useAnswer s) with pos := .lineTrailer } := by
        simp [afterTx, hpos, hcur, hlast, hprev]
      rw [hat]
      refine ⟨?_, by simp, by simp [currentFrame, hpos, frameVcom, flippedAt], by simp [hpos, frameVcom, flippedAt]⟩
      have : j + 1 = bytesPerLine s.cfg := by omega
      refine ⟨hs, y, hy, ?_, hprev, ?_⟩
      · show s.byteIndex + 1 = _
        rw [hidx, Nat.add_assoc, this]; simp; ring
      · show s.callPos + 1 = _
        simp; omega
  case lineTrailer =>
    obtain ⟨hs, y, hy, hidx, hprev, hcall⟩ := hi
    have hcur : currentLine (recordCall e (useAnswer s)) = y + 1 + 1 := by
      simp [currentLine, hidx, Nat.mul_div_cancel _ hB]
    by_cases hlast : y + 1 < nativeHeight s.cfg
    · have hat : afterTx (recordCall e (useAnswer s))
          = { recordCall e (useAnswer s) with pos := .lineAddress } := by
        simp [afterTx, hpos, hcur, show y + 1 + 1 ≤ nativeHeight s.cfg by omega]
      rw [hat]
      refine ⟨⟨hs, y, hlast, hidx, hprev, ?_⟩, by simp, by simp [currentFrame, hpos, frameVcom, flippedAt],
        by simp [hpos, frameVcom, flippedAt]⟩
      show s.callPos + 1 = _
      rw [hcall]; simp; ring
    · have hye : y + 1 = nativeHeight s.cfg := by omega
      have hend : s.byteIndex + 1 = bufferBytes s.cfg := by rw [hidx, hN, hye]
      have hat : afterTx (recordCall e (useAnswer s)) = nextTurn (recordCall e (useAnswer s)) := by
        simp [afterTx, hpos, hcur, show ¬ y + 1 + 1 ≤ nativeHeight s.cfg by omega]
      rw [hat]
      refine ⟨?_, by simp [hend], by simp [currentFrame, hpos, hend, frameVcom, flippedAt],
        by simp [hpos, hend, frameVcom, flippedAt]⟩
      simp only [EncoderInv, nextTurn_pos, recordCall_byteIndex, useAnswer_byteIndex, recordCall_cfg, useAnswer_cfg,
        hend, lt_irrefl, if_false, nextTurn_sel, recordCall_sel, useAnswer_sel, nextTurn_byteIndex, nextTurn_cfg,
        nextTurn_prevLine, hcur, nextTurn_callPos, recordCall_callPos, useAnswer_callPos]
      refine ⟨hs, trivial, by omega, ?_⟩
      rw [hcall, ← hye]; ring
  case lineAddress =>
    obtain ⟨hs, y, hy, hidx, hprev, hcall⟩ := hi
    have hcur : currentLine (recordCall e (useAnswer s)) = y + 1 + 1 := by
      simp [currentLine, hidx, Nat.mul_div_cancel _ hB]
    have hlt : s.byteIndex + 1 < bufferBytes s.cfg := by
      rw [hidx]; simpa using lineIndex_lt hc hy hB
    have hat : afterTx (recordCall e (useAnswer s)) = nextTurn (recordCall e (useAnswer s)) := by
      simp [afterTx, hpos]
    rw [hat]
    refine ⟨?_, by simp [hlt], by simp [currentFrame, hpos, hlt, frameVcom, flippedAt],
      by simp [hpos, hlt, frameVcom, flippedAt]⟩
    simp only [EncoderInv, nextTurn_pos, recordCall_byteIndex, useAnswer_byteIndex, recordCall_cfg, useAnswer_cfg,
      hlt, if_true, nextTurn_sel, recordCall_sel, useAnswer_sel, nextTurn_byteIndex, nextTurn_cfg,
      nextTurn_prevLine, hcur, nextTurn_callPos, recordCall_callPos, useAnswer_callPos]
    exact ⟨hs, y + 1, 0, hy, hB, by omega, rfl, by omega⟩
  case finalTrailer =>
    obtain ⟨hs, hidx, hprev, hcall⟩ := hi
    refine ⟨?_, by simp [afterTx, hpos], by simp [afterTx, hpos, currentFrame, frameVcom, flippedAt],
      by simp [afterTx, hpos, frameVcom, flippedAt]⟩
    simp [afterTx, hpos, EncoderInv, hs, hidx, hprev, hcall]
    omega

/-- The byte sent at the encoder's position is the frame's event of number `callPos` (R73, R117). -/
theorem frame_at_tx {s : State} (hc : configOK s.cfg = true) (hi : EncoderInv s) (hp : txPos s.pos = true) :
    (currentFrame s)[s.callPos]? = some (.tx (nextByte s)) := by
  have hB := bytesPerLine_pos hc
  have hH := height_pos hc
  have hlt : ∀ y i, y < nativeHeight s.cfg → i < bytesPerLine s.cfg + 2 →
      1 + y * (bytesPerLine s.cfg + 2) + i < refreshTxCount s.cfg := by
    intro y i hy hi
    have := Nat.mul_le_mul_right (bytesPerLine s.cfg + 2) (show y + 1 ≤ nativeHeight s.cfg from hy)
    rw [Nat.add_mul] at this
    unfold refreshTxCount; omega
  have hline : ∀ v y i b, y < nativeHeight s.cfg → i < bytesPerLine s.cfg + 2 → (lineBytes s.cfg s.fb y)[i]? = some b →
      (refreshFrame s.cfg v s.fb)[2 + y * (bytesPerLine s.cfg + 2) + i]? = some (.tx b) := by
    intro v y i b hy hi hb
    rw [show 2 + y * (bytesPerLine s.cfg + 2) + i = (1 + y * (bytesPerLine s.cfg + 2) + i) + 1 by omega,
      refreshFrame_tx _ _ _ _ (hlt y i hy hi), refreshBytes_line _ _ _ hy hi, hb]
    rfl
  unfold EncoderInv at hi
  cases hpos : s.pos <;> rw [hpos] at hi hp
  case idle => cases hp
  case clearDeassert => cases hp
  case refreshDeassert => cases hp
  case stopped => cases hp
  case clearCommand => simp [currentFrame, hpos, nextByte, hi, clearFrame, frameVcom, flippedAt]
  case clearTrailer => simp [currentFrame, hpos, nextByte, hi, clearFrame]
  case refreshCommand =>
    simp only [currentFrame, hpos, nextByte, hi]
    rw [refreshFrame_tx _ _ _ 0 (by unfold refreshTxCount; omega), refreshBytes_command]
    simp [frameVcom, hpos, flippedAt]
  case firstAddress =>
    simp only [currentFrame, hpos, nextByte, hi]
    have := hline (frameVcom s) 0 0 _ hH (by omega) (lineBytes_address _ _ _)
    simpa using this
  case data =>
    obtain ⟨hs, y, j, hy, hj, hidx, hprev, hcall⟩ := hi
    simp only [currentFrame, hpos, nextByte]
    rw [hcall, hidx, show 3 + y * (bytesPerLine s.cfg + 2) + j = 2 + y * (bytesPerLine s.cfg + 2) + (j + 1) by omega]
    exact hline _ _ _ _ hy (by omega) (lineBytes_data _ _ _ hj)
  case lineTrailer =>
    obtain ⟨hs, y, hy, hidx, hprev, hcall⟩ := hi
    simp only [currentFrame, hpos, nextByte]
    rw [hcall, show 3 + y * (bytesPerLine s.cfg + 2) + bytesPerLine s.cfg
      = 2 + y * (bytesPerLine s.cfg + 2) + (bytesPerLine s.cfg + 1) by omega]
    exact hline _ _ _ _ hy (by omega) (lineBytes_trailer _ _ _)
  case lineAddress =>
    obtain ⟨hs, y, hy, hidx, hprev, hcall⟩ := hi
    have hcur : currentLine s = y + 1 + 1 := by simp [currentLine, hidx, Nat.mul_div_cancel _ hB]
    simp only [currentFrame, hpos, nextByte, hcur]
    rw [hcall]
    exact hline _ (y + 1) 0 _ hy (by omega) (lineBytes_address _ _ _)
  case finalTrailer =>
    obtain ⟨hs, hidx, hprev, hcall⟩ := hi
    simp only [currentFrame, hpos, nextByte]
    rw [hcall, show 2 + nativeHeight s.cfg * (bytesPerLine s.cfg + 2)
      = (1 + nativeHeight s.cfg * (bytesPerLine s.cfg + 2)) + 1 by omega,
      refreshFrame_tx _ _ _ _ (by unfold refreshTxCount; omega), refreshBytes_final]
    rfl

end Sys2Proof.Machine
end

