-- ==== Sys2Proof/Laws/Transaction.lean ====
section
/-! SUPPORT. Runs of transport calls: what `runCalls` leaves when the calls succeed and when one fails, and what
opening and closing a transaction do. -/

namespace Sys2Proof.Machine

/-! ## Running calls -/

theorem runCalls_zero (s : State) : runCalls 0 s = s := rfl

theorem runCalls_succ {s : State} (h : s.fault = .noFault) (n : Nat) :
    runCalls (n + 1) s = runCalls n (encoderStep s) := by
  simp [runCalls, h]

theorem runCalls_faulted {s : State} (h : s.fault ≠ .noFault) (n : Nat) : runCalls n s = s := by
  cases n <;> simp [runCalls, h]

theorem runCalls_add (m n : Nat) (s : State) : runCalls (m + n) s = runCalls n (runCalls m s) := by
  induction m generalizing s with
  | zero => simp [runCalls_zero]
  | succ m ih =>
    by_cases h : s.fault = .noFault
    · rw [Nat.add_right_comm, runCalls_succ h, runCalls_succ h, ih]
    · rw [runCalls_faulted h, runCalls_faulted h, runCalls_faulted h]

/-- With no call next nothing is called. -/
theorem runCalls_idle {s : State} (h : ¬ HasCall s.pos) (n : Nat) : runCalls n s = s := by
  induction n with
  | zero => rfl
  | succ n ih =>
    by_cases hf : s.fault = .noFault
    · rw [runCalls_succ hf, encoderStep_none h, ih]
    · exact runCalls_faulted hf _

/-- `t` is `s` with `n` more calls of the same transaction made, and the transaction not ended. -/
structure Continues (n : Nat) (s t : State) : Prop where
  cfg : t.cfg = s.cfg
  fb : t.fb = s.fb
  rot : t.rot = s.rot
  sel : t.sel = s.sel
  fault : t.fault = s.fault
  responses : t.responses = s.responses
  schedule : t.schedule = s.schedule
  callPos : t.callPos = s.callPos + n
  answers : t.answers = s.answers.drop n
  trace : t.trace = s.trace ++ ((currentFrame s).drop s.callPos).take n
  frame : currentFrame t = currentFrame s
  vcom : frameVcom t = frameVcom s
  encoder : EncoderInv t
  active : HasCall t.pos

theorem Continues.refl {s : State} (hi : EncoderInv s) (hp : HasCall s.pos) : Continues 0 s s :=
  { cfg := rfl, fb := rfl, rot := rfl, sel := rfl, fault := rfl, responses := rfl, schedule := rfl, callPos := rfl,
    answers := rfl, trace := by simp, frame := rfl, vcom := rfl, encoder := hi, active := hp }

/-- A byte that was sent (R102). -/
theorem encoderStep_continues {s : State} {b : Byte} (hc : configOK s.cfg = true) (hi : EncoderInv s)
    (ha : nextAnswer s = .ok b) (hp : txPos s.pos = true) : Continues 1 s (encoderStep s) := by
  rw [encoderStep_sent ha hp]
  obtain ⟨h₁, h₂, h₃, h₄⟩ := afterTx_keeps (e := .tx (nextByte s)) hc hi hp
  have hf := frame_at_tx hc hi hp
  exact
    { cfg := by simp, fb := by simp, rot := by simp, sel := by simp, fault := by simp, responses := by simp,
      schedule := by simp, callPos := by simp, answers := by simp
      trace := by
        obtain ⟨hlt, he⟩ := List.getElem?_eq_some_iff.1 hf
        rw [List.drop_eq_getElem_cons hlt, he]
        simp
      frame := h₃, vcom := h₄, encoder := h₁, active := h₂ }

theorem Continues.trans {m n : Nat} {s t u : State} (h : Continues m s t) (h' : Continues n t u) :
    Continues (m + n) s u :=
  { cfg := h'.cfg.trans h.cfg, fb := h'.fb.trans h.fb, rot := h'.rot.trans h.rot, sel := h'.sel.trans h.sel
    fault := h'.fault.trans h.fault, responses := h'.responses.trans h.responses
    schedule := h'.schedule.trans h.schedule
    callPos := by rw [h'.callPos, h.callPos, Nat.add_assoc]
    answers := by rw [h'.answers, h.answers, List.drop_drop]
    trace := by
      rw [h'.trace, h.trace, h.frame, h.callPos, ← List.drop_drop, List.append_assoc, ← List.take_add]
    frame := h'.frame.trans h.frame, vcom := h'.vcom.trans h.vcom, encoder := h'.encoder, active := h'.active }

/-- A position that is not a `Tx` has the last call of the frame next. -/
theorem txPos_of_lt {s : State} (hi : EncoderInv s) (hp : HasCall s.pos)
    (hlt : s.callPos + 1 < (currentFrame s).length) : txPos s.pos = true := by
  unfold EncoderInv at hi
  cases hpos : s.pos <;> rw [hpos] at hi hp <;> try rfl
  · exact absurd rfl hp.1
  · simp [currentFrame, hpos, clearFrame, hi] at hlt
  · simp only [currentFrame, hpos, length_refreshFrame, refreshTxCount, hi] at hlt
    omega
  · exact absurd rfl hp.2

/-- Calls that succeed, short of the end of the transaction. -/
theorem runCalls_continues {n : Nat} {s : State} (hc : configOK s.cfg = true) (hi : EncoderInv s)
    (hf : s.fault = .noFault) (hp : HasCall s.pos) (ha : CallsSucceed n s)
    (hn : s.callPos + n < (currentFrame s).length) : Continues n s (runCalls n s) := by
  induction n generalizing s with
  | zero => exact .refl hi hp
  | succ n ih =>
    obtain ⟨b, hb⟩ := nextAnswer_of_succeed ha
    have h₁ := encoderStep_continues hc hi hb (txPos_of_lt hi hp (by omega))
    rw [runCalls_succ hf, Nat.add_comm n 1]
    refine h₁.trans (ih ?_ h₁.encoder ?_ h₁.active ?_ ?_)
    · rw [h₁.cfg]; exact hc
    · rw [h₁.fault]; exact hf
    · have := succeed_useAnswer ha
      unfold CallsSucceed at *
      rw [h₁.answers]
      simpa using this
    · rw [h₁.callPos, h₁.frame]; omega

/-- Calls of which the last fails: that call is `failCall` on the state as the calls before left it (R104). -/
theorem runCalls_failed {k n : Nat} {s : State} (hc : configOK s.cfg = true) (hi : EncoderInv s)
    (hf : s.fault = .noFault) (hp : HasCall s.pos) (ha : FailsAt k s) (hn : s.callPos + k < (currentFrame s).length)
    (hk : k < n) :
    ∃ t, Continues k s t ∧ runCalls n s = failCall t := by
  have h := runCalls_continues hc hi hf hp ha.1 hn
  refine ⟨_, h, ?_⟩
  obtain ⟨m, rfl⟩ : ∃ m, n = k + (m + 1) := ⟨n - k - 1, by omega⟩
  have hfail : nextAnswer (runCalls k s) = .failed := by
    refine nextAnswer_of_failsAt_zero ⟨by simp [CallsSucceed], ?_⟩
    rw [h.answers]
    simpa using ha.2
  rw [runCalls_add, runCalls_succ (h.fault.trans hf), encoderStep_failed hfail h.active,
    runCalls_faulted (failCall_faulted _)]

/-! ## Opening and closing a transaction -/

/-- A transaction that opens (R101). -/
theorem openTransaction_ok {s : State} {b : Byte} (h : nextAnswer s = .ok b) (p : EncoderPos) :
    openTransaction p s =
      { recordCall .assertSelect (useAnswer { s with callPos := 0 }) with sel := .asserted, pos := p } :=
  emit_ok (s := { s with callPos := 0 }) h _ _

/-- The assert fails: the call k = 0 does (R104). -/
theorem openTransaction_failed {s : State} (h : nextAnswer s = .failed) (p : EncoderPos) :
    openTransaction p s = failCall { s with callPos := 0 } :=
  emit_failed (s := { s with callPos := 0 }) h _ _

/-- A transaction that closes (R103). -/
theorem closeTransaction_ok {s : State} {b : Byte} (h : nextAnswer s = .ok b) (f : State → State) :
    closeTransaction f s =
      respond .done (f { recordCall .deassertSelect (useAnswer s) with sel := .deasserted, pos := .idle }) :=
  emit_ok h _ _

theorem closeTransaction_failed {s : State} (h : nextAnswer s = .failed) (f : State → State) :
    closeTransaction f s = failCall s :=
  emit_failed h _ _

/-- What no call changes, and what it can do to the buffer: the fill at the end of a clear is the one write. -/
theorem encoderStep_shape (s : State) : (encoderStep s).cfg = s.cfg ∧ (encoderStep s).schedule = s.schedule ∧
    (encoderStep s).rot = s.rot ∧
    ((encoderStep s).fb = s.fb ∨ (encoderStep s).fb = fillBlank (bufferBytes s.cfg) s.fb) := by
  rcases nextAnswer_cases s with ⟨b, hb⟩ | hf
  · cases hp : s.pos
    case idle => rw [encoderStep_idle hp]; exact ⟨rfl, rfl, rfl, .inl rfl⟩
    case stopped => rw [encoderStep_stopped hp]; exact ⟨rfl, rfl, rfl, .inl rfl⟩
    case clearDeassert =>
      rw [encoderStep_clearDeassert hp, endClear, closeTransaction_ok hb]
      split
      · exact ⟨rfl, rfl, rfl, .inr rfl⟩
      · exact ⟨rfl, rfl, rfl, .inl rfl⟩
    case refreshDeassert =>
      rw [encoderStep_refreshDeassert hp, endRefresh, closeTransaction_ok hb]
      exact ⟨rfl, rfl, rfl, .inl rfl⟩
    all_goals
      rw [encoderStep_sent hb (by rw [hp]; rfl)]
      simp
  · by_cases hp : HasCall s.pos
    · rw [encoderStep_failed hf hp]; exact ⟨rfl, rfl, rfl, .inl rfl⟩
    · rw [encoderStep_none hp]; exact ⟨rfl, rfl, rfl, .inl rfl⟩

/-- What a call can do to the fault register: nothing, or, over no fault, the TransportFault of its position (R104). -/
theorem encoderStep_fault (s : State) : (encoderStep s).fault = s.fault ∨
    s.fault = .noFault ∧ (encoderStep s).fault = .transportFault s.callPos ∧ (encoderStep s).pos = .stopped := by
  rcases nextAnswer_cases s with ⟨b, hb⟩ | hf
  · left
    cases hp : s.pos
    case idle => rw [encoderStep_idle hp]
    case stopped => rw [encoderStep_stopped hp]
    case clearDeassert =>
      rw [encoderStep_clearDeassert hp, endClear, closeTransaction_ok hb]
      split <;> rfl
    case refreshDeassert => rw [encoderStep_refreshDeassert hp, endRefresh, closeTransaction_ok hb]; rfl
    all_goals rw [encoderStep_sent hb (by rw [hp]; rfl)]; simp
  · by_cases hp : HasCall s.pos
    · rw [encoderStep_failed hf hp]
      by_cases h : s.fault = .noFault
      · exact .inr ⟨h, by simp [h], rfl⟩
      · exact .inl (stickyFault_recorded h _)
    · rw [encoderStep_none hp]; exact .inl rfl

theorem openTransaction_cfg (p : EncoderPos) (s : State) : (openTransaction p s).cfg = s.cfg := by
  rcases nextAnswer_cases s with ⟨b, hb⟩ | hf
  · rw [openTransaction_ok hb]; rfl
  · rw [openTransaction_failed hf]; rfl

/-- At the last call of its frame a transaction is about to be closed (R108, R116). -/
theorem pos_of_last {s : State} (hi : EncoderInv s) (hp : HasCall s.pos)
    (hl : s.callPos + 1 = (currentFrame s).length) :
    s.pos = .clearDeassert ∨ s.pos = .refreshDeassert := by
  unfold EncoderInv at hi
  cases hpos : s.pos <;> rw [hpos] at hi hp <;> try simp
  · exact absurd rfl hp.1
  · simp [currentFrame, hpos, clearFrame, hi] at hl
  · simp [currentFrame, hpos, clearFrame, hi] at hl
  all_goals
    simp only [currentFrame, hpos, length_refreshFrame, refreshTxCount] at hl
  · omega
  · omega
  · obtain ⟨-, y, j, hy, hj, -, -, hcall⟩ := hi
    have := Nat.mul_le_mul_right (bytesPerLine s.cfg + 2) (show y + 1 ≤ nativeHeight s.cfg from hy)
    rw [Nat.add_mul] at this
    omega
  · obtain ⟨-, y, hy, -, -, hcall⟩ := hi
    have := Nat.mul_le_mul_right (bytesPerLine s.cfg + 2) (show y + 1 ≤ nativeHeight s.cfg from hy)
    rw [Nat.add_mul] at this
    omega
  · obtain ⟨-, y, hy, -, -, hcall⟩ := hi
    have := Nat.mul_le_mul_right (bytesPerLine s.cfg + 2) (show y + 1 ≤ nativeHeight s.cfg by omega)
    omega
  · omega
  · simp at hl

end Sys2Proof.Machine
end

