-- ==== Sys2Proof/Laws/Fetch.lean ====
section
/-! SUPPORT. What a step can do, once: commands are dispatched, a quiet step makes the next transport call. -/

namespace Sys2Proof.Machine

/-! ## Commands -/

/-- The operation code of a command (R67). -/
def commandOp : Instr → BitVec 4
  | .init _ => 0x0#4
  | .setPixel _ _ _ => 0x1#4
  | .getPixel _ _ => 0x2#4
  | .clearBuffer => 0x3#4
  | .clearDisplay => 0x4#4
  | .refresh => 0x5#4
  | .setRotation _ => 0x6#4
  | .getWidth => 0x7#4
  | .getHeight => 0x8#4
  | .wireCmdWrite _ | .wireCmdClear _ | .wireLineAddr _ | .wireData _ | .wireTrailer => 0xF#4

/-- The rule of a command, what it does once the dispatch checks have passed (R130, check 4). -/
def commandRule : Instr → State → State
  | .init r => initRule r
  | .setPixel val x y => setPixelRule val x y
  | .getPixel x y => getPixelRule x y
  | .clearBuffer => clearBufferRule
  | .clearDisplay => clearDisplayRule
  | .refresh => refreshRule
  | .setRotation r => setRotationRule r
  | .getWidth => getWidthRule
  | .getHeight => getHeightRule
  | .wireCmdWrite _ | .wireCmdClear _ | .wireLineAddr _ | .wireData _ | .wireTrailer => id

/-- Every command is its rule behind the dispatch checks (R130). -/
theorem exec_dispatch {i : Instr} (hi : i.isCommand = true) (s : State) :
    exec i s = dispatch (commandOp i) (commandRule i) s := by
  cases i <;> first | rfl | cases hi

/-- A command in a block that can execute it. -/
theorem exec_ready {i : Instr} (hi : i.isCommand = true) {s : State} (h : Ready s) :
    exec i s = .next (commandRule i s) := by
  rw [exec_dispatch hi, dispatch_ready h]

/-- Everything a command can do when it answers a next state: the sticky fault, the overlap, its rule. -/
theorem exec_cases {i : Instr} (hi : i.isCommand = true) {s t : State} (h : exec i s = .next t) :
    (s.fault ≠ .noFault ∧ t = respondSticky s) ∨
    (s.fault = .noFault ∧ configOK s.cfg = true ∧ s.sel = .asserted ∧
      t = raiseFault (.txnOverlap (commandOp i)) s) ∨
    (Ready s ∧ t = commandRule i s) := by
  rw [exec_dispatch hi] at h
  exact dispatch_cases h

/-- A word that decodes is a command's, with that command's operation code (R67). -/
theorem decodeCommand_ok {w : CmdWord} {i : Instr} (h : decodeCommand w = .ok i) :
    i.isCommand = true ∧ opField w = commandOp i := by
  unfold decodeCommand at h
  repeat' split at h
  all_goals first
    | cases h; done
    | (have hop := op_of_selects ‹_› (by decide)
       cases h
       refine ⟨rfl, hop.trans ?_⟩
       show opField _ = BitVec.ofNat 4 _
       decide)

theorem exec_sticky {i : Instr} (hi : i.isCommand = true) {s : State} (h : s.fault ≠ .noFault) :
    exec i s = .next (respondSticky s) := by
  rw [exec_dispatch hi]; exact dispatch_sticky h _ _

theorem exec_overlap {i : Instr} (hi : i.isCommand = true) {s : State} (h₁ : s.fault = .noFault)
    (h₂ : configOK s.cfg = true) (h₃ : s.sel = .asserted) :
    exec i s = .next (raiseFault (.txnOverlap (commandOp i)) s) := by
  rw [exec_dispatch hi]; exact dispatch_overlap h₁ h₂ h₃ _ _

theorem present_ok {w : CmdWord} {i : Instr} (h : decodeCommand w = .ok i) (s : State) : present w s = exec i s := by
  simp [present, h]

theorem present_error {w : CmdWord} {e : DecodeError} (h : decodeCommand w = .error e) (s : State) :
    present w s = .next (illegalWord w s) := by
  simp [present, h]

theorem presentByCalls_ok {w : CmdWord} {i : Instr} (h : decodeCommand w = .ok i) (s : State) :
    presentByCalls w s = execByCalls i s := by
  simp [presentByCalls, h]

theorem presentByCalls_error {w : CmdWord} {e : DecodeError} (h : decodeCommand w = .error e) (s : State) :
    presentByCalls w s = .next (illegalWord w s) := by
  simp [presentByCalls, h]

/-- Call by call, a command is a body behind the dispatch checks too. -/
theorem execByCalls_dispatch {i : Instr} (hi : i.isCommand = true) :
    ∃ body, ∀ s, execByCalls i s = dispatch (commandOp i) body s := by
  cases i <;> first | exact ⟨_, fun _ => rfl⟩ | cases hi

/-- In a faulted block a word of either form is answered by the fault alone (R147). -/
theorem present_sticky {s : State} (h : s.fault ≠ .noFault) (w : CmdWord) :
    present w s = .next (respondSticky s) ∧ presentByCalls w s = .next (respondSticky s) := by
  cases hd : decodeCommand w with
  | error e => rw [present_error hd, presentByCalls_error hd]; simp [illegalWord, h]
  | ok i =>
    obtain ⟨body, hb⟩ := execByCalls_dispatch (decodeCommand_ok hd).1
    rw [present_ok hd, presentByCalls_ok hd, hb]
    exact ⟨exec_sticky (decodeCommand_ok hd).1 h, dispatch_sticky h _ _⟩

/-! ## Quiet steps -/

theorem transactionRuns_iff {s : State} : transactionRuns s = true ↔ MidTransaction s := by
  unfold transactionRuns MidTransaction
  cases s.fault <;> cases s.sel <;> simp

theorem transactionRuns_of {s : State} (h : MidTransaction s) : transactionRuns s = true := transactionRuns_iff.2 h

/-- In mid-transaction a quiet step is the encoder's next call (R122). -/
theorem quietStep_running {s : State} (hc : configOK s.cfg = true) (hi : EncoderInv s) (hm : MidTransaction s) :
    quietStep s = .next (encoderStep s) := by
  have hsend : ∀ i b, wireItemAt s = some i → sendItem i b s = .next (sendTx b s) := by
    intro i b h; simp [sendItem, transactionRuns_of hm, h]
  have hdata : s.pos = .data → s.byteIndex < bufferBytes s.cfg := by
    intro hp
    unfold EncoderInv at hi
    rw [hp] at hi
    obtain ⟨-, y, j, hy, hj, hidx, -⟩ := hi
    rw [hidx]; exact lineIndex_lt hc hy hj
  rw [quietStep, if_pos (transactionRuns_of hm)]
  cases hw : wireItemAt s with
  | some i =>
    obtain ⟨htx, henc⟩ := wireItemAt_encode hw
    rw [encoderStep_eq_sendTx htx]
    cases i <;> first
      | exact (hsend _ _ hw).trans (by injection henc with h; rw [h])
      | cases henc
  | none =>
    unfold wireItemAt at hw
    unfold EncoderInv at hi
    cases hp : s.pos <;> rw [hp] at hw hi <;> simp only [reduceCtorEq] at hw
    · rw [hm.2.1] at hi; cases hi
    · simp [encoderStep, hp]
    · simp [hdata hp] at hw
    · simp [encoderStep, hp]
    · exact absurd hp hm.2.2

/-- Outside a transaction, and in a faulted block no overlap interrupted, a quiet step changes nothing. -/
theorem quietStep_idle {s : State} (h : ¬ MidTransaction s) (hi : interrupted s = false) :
    quietStep s = .next s := by
  have h : ¬ transactionRuns s = true := fun hr => h (transactionRuns_iff.1 hr)
  rw [quietStep, if_neg h, hi]
  rfl

theorem quietStep_interrupted {s : State} (hi : interrupted s = true) :
    quietStep s = .next (unspecifiedCalls s) := by
  have h : ¬ transactionRuns s = true := by
    rintro h
    obtain ⟨h | ⟨w, h⟩, -⟩ := transactionRuns_iff.1 h <;> simp [interrupted, h] at hi
  rw [quietStep, if_neg h, if_pos hi]

/-! ## Steps -/

section
variable {s : State} {rest : List HostEvent}

theorem step_nil (h : s.schedule = []) : step s = quietStep s := by rw [step, h, react]

theorem step_quiet (h : s.schedule = .quiet :: rest) : step s = quietStep { s with schedule := rest } := by
  rw [step, h, react]

theorem step_command {w : CmdWord} (h : s.schedule = .command w :: rest) :
    step s = present w { s with schedule := rest } := by
  rw [step, h, react]

theorem step_commandByCalls {w : CmdWord} (h : s.schedule = .commandByCalls w :: rest) :
    step s = presentByCalls w { s with schedule := rest } := by
  rw [step, h, react]

theorem step_together {w₁ w₂ : CmdWord} (h : s.schedule = .together w₁ w₂ :: rest) :
    step s = presentTogether w₁ w₂ { s with schedule := rest } := by
  rw [step, h, react]

theorem step_reset {rot : Rotation} {bytes : List Byte} (h : s.schedule = .reset rot bytes :: rest) :
    step s = .next (takeReset rot bytes { s with schedule := rest }) := by
  rw [step, h, react]

end

/-- A run whose first step answers a next state. -/
theorem run_step {n : Nat} {s t : State} (h : step s = .next t) :
    Host.Core.run Sys2Proof.core (n + 1) s = Host.Core.run Sys2Proof.core n t := by
  simp only [Host.Core.run]
  have : Sys2Proof.core.step s = .next t := h
  rw [this]

theorem run_zero (s : State) : Host.Core.run Sys2Proof.core 0 s = .next s := rfl

/-- A step that leaves a state alone but for the schedule. -/
theorem schedule_eta {s : State} {rest : List HostEvent} (h : s.schedule = rest) :
    { s with schedule := rest } = s := by
  subst h; rfl

end Sys2Proof.Machine
end

