-- ==== Sys2Proof/Laws/Operands.lean ====
section
/-! SUPPORT. The bit address (R86) and the one bit a pixel write changes (R88). -/

namespace Sys2Proof.Machine

/-! ## Bits of a byte -/

theorem getLsbD_bitMask (k j : Nat) : (bitMask k).getLsbD j = (decide (j < 8) && decide (j = k)) := by
  unfold bitMask
  simp only [BitVec.getLsbD_shiftLeft, BitVec.getLsbD_one]
  by_cases h : j = k
  · subst h; simp
  · by_cases h' : j < k
    · simp [h, h']
    · simp [h, h', show j - k ≠ 0 by omega]

/-- The bit written, and "the other seven bits of the byte are never changed" (R88). -/
theorem bitOf_putBit (b : Byte) {k j : Nat} (v : Bit) (hj : j < 8) :
    bitOf (putBit b k v) j = if j = k then v else bitOf b j := by
  have hv : v = 0#1 ∨ v = 1#1 := by revert v; decide
  have h₁ : (b ||| bitMask k).getLsbD j = (b.getLsbD j || decide (j = k)) := by
    rw [BitVec.getLsbD_or, getLsbD_bitMask, decide_eq_true hj, Bool.true_and]
  have h₀ : (b &&& ~~~(bitMask k)).getLsbD j = (b.getLsbD j && !decide (j = k)) := by
    rw [BitVec.getLsbD_and, BitVec.getLsbD_not, getLsbD_bitMask, decide_eq_true hj, Bool.true_and, Bool.true_and]
  rcases hv with rfl | rfl
  · rw [putBit, if_neg (by decide), bitOf, h₀]
    by_cases h : j = k <;> simp [h, bitOf]
  · rw [putBit, if_pos rfl, bitOf, h₁]
    by_cases h : j = k <;> simp [h, bitOf]

/-- Two bytes with the same eight bits are one byte. -/
theorem eq_of_bitOf {a b : Byte} (h : ∀ k, k < 8 → bitOf a k = bitOf b k) : a = b := by
  apply BitVec.eq_of_getLsbD_eq
  intro i hi
  have := h i hi
  unfold bitOf at this
  revert this
  cases a.getLsbD i <;> cases b.getLsbD i <;> simp

/-! ## The bit address -/

theorem byteIndexOf_natCast (c : Config) (x y : Nat) :
    byteIndexOf c ((x : Int), (y : Int)) = (y * nativeWidth c + x) / 8 := by
  unfold byteIndexOf
  norm_cast

theorem bitPositionOf_natCast (x y : Nat) : bitPositionOf ((x : Int), (y : Int)) = x % 8 := by
  unfold bitPositionOf
  norm_cast

/-- An in-range coordinate is a pair of naturals. -/
theorem inRange_natCast {c : Config} {p : Int × Int} (h : InRange c p) :
    ∃ x y : Nat, p = ((x : Int), (y : Int)) ∧ x < nativeWidth c ∧ y < nativeHeight c := by
  obtain ⟨⟨h₁, h₂⟩, h₃, h₄⟩ := h
  refine ⟨p.1.toNat, p.2.toNat, ?_, by omega, by omega⟩
  ext <;> simp [h₁, h₃]

/-- "Equivalently `idx = y'*BPL + x'/8`" (R86). -/
theorem byteIndexOf_line {c : Config} (hc : configOK c = true) (x y : Nat) :
    byteIndexOf c ((x : Int), (y : Int)) = y * bytesPerLine c + x / 8 := by
  rw [byteIndexOf_natCast, width_eq hc]
  have : y * (8 * bytesPerLine c) + x = 8 * (y * bytesPerLine c) + x := by ring
  omega

/-- The byte of an in-range coordinate is inside the buffer (R86). -/
theorem byteIndexOf_lt {c : Config} (hc : configOK c = true) {p : Int × Int} (h : InRange c p) :
    byteIndexOf c p < bufferBytes c := by
  obtain ⟨x, y, rfl, hx, hy⟩ := inRange_natCast h
  rw [byteIndexOf_line hc]
  have := width_eq hc
  exact lineIndex_lt hc hy (by omega)

theorem bitPositionOf_lt (p : Int × Int) : bitPositionOf p < 8 := by
  unfold bitPositionOf
  omega

/-- "Distinct in-range native coordinates give distinct `(idx, k)` pairs" (R86). -/
theorem bitAddress_injective {c : Config} (hc : configOK c = true) {p q : Int × Int} (hp : InRange c p)
    (hq : InRange c q) (hi : byteIndexOf c p = byteIndexOf c q) (hk : bitPositionOf p = bitPositionOf q) : p = q := by
  obtain ⟨x, y, rfl, hx, hy⟩ := inRange_natCast hp
  obtain ⟨x', y', rfl, hx', hy'⟩ := inRange_natCast hq
  rw [byteIndexOf_line hc, byteIndexOf_line hc] at hi
  rw [bitPositionOf_natCast, bitPositionOf_natCast] at hk
  have hW := width_eq hc
  have hB := bytesPerLine_pos hc
  have h₁ : x / 8 < bytesPerLine c := by omega
  have h₂ : x' / 8 < bytesPerLine c := by omega
  have hy : y = y' := by
    have := congrArg (· / bytesPerLine c) hi
    simpa [Nat.mul_comm _ (bytesPerLine c), Nat.mul_add_div hB, Nat.div_eq_of_lt h₁, Nat.div_eq_of_lt h₂] using this
  subst hy
  have hx : x = x' := by omega
  rw [hx]

/-! ## A pixel write -/

/-- A pixel write changes the bit it addresses and no other bit of the buffer (R88, R89). -/
theorem fbBit_setFbBit {s : State} (hb : Memory.wf s.fb = true) (hc : configOK s.cfg = true) {p q : Int × Int}
    (hp : InRange s.cfg p) (hq : InRange s.cfg q) (v : Bit) :
    fbBit (setFbBit v p s) q = if q = p then v else fbBit s q := by
  unfold fbBit
  rw [setFbBit_fb, setFbBit_cfg, readByte_writeByte hb]
  by_cases hi : byteIndexOf s.cfg q = byteIndexOf s.cfg p
  · rw [if_pos hi, bitOf_putBit _ _ (bitPositionOf_lt q)]
    by_cases hk : bitPositionOf q = bitPositionOf p
    · have := bitAddress_injective hc hq hp hi hk
      simp [this]
    · have : q ≠ p := fun h => hk (by rw [h])
      simp [hk, this, hi]
  · have : q ≠ p := fun h => hi (by rw [h])
    simp [hi, this]

end Sys2Proof.Machine
end

