-- ==== Sys2Proof/Laws/PerInstr.lean ====
section
/-! SUPPORT. The statement made of every instruction, one lemma per constructor: what an instruction is written as
selects its own row of spec/opcode_table.json (`word & mask = match`) and has the width that row gives. -/

namespace Sys2Proof.Laws.EncodingSelectsItsRow

/-- The width, mask and match of an instruction's row of spec/opcode_table.json. -/
def row : Instr → Nat × Nat × Nat
  | .init _ => (40, 0xF3FFFFFFFF, 0x0000000000)
  | .setPixel _ _ _ => (40, 0xFE00000000, 0x1000000000)
  | .getPixel _ _ => (40, 0xFF00000000, 0x2000000000)
  | .clearBuffer => (40, 0xFFFFFFFFFF, 0x3000000000)
  | .clearDisplay => (40, 0xFFFFFFFFFF, 0x4000000000)
  | .refresh => (40, 0xFFFFFFFFFF, 0x5000000000)
  | .setRotation _ => (40, 0xF3FFFFFFFF, 0x6000000000)
  | .getWidth => (40, 0xFFFFFFFFFF, 0x7000000000)
  | .getHeight => (40, 0xFFFFFFFFFF, 0x8000000000)
  | .wireCmdWrite _ => (8, 0xFD, 0x01)
  | .wireCmdClear _ => (8, 0xFD, 0x04)
  | .wireLineAddr _ => (8, 0x00, 0x00)
  | .wireData _ => (8, 0x00, 0x00)
  | .wireTrailer => (8, 0xFF, 0x00)

/-- The encoding of `i` selects the row of `i`. -/
def Statement (i : Instr) : Prop :=
  match encode i with
  | .command w => (row i).1 = 40 ∧ selects (BitVec.ofNat 40 (row i).2.1) (BitVec.ofNat 40 (row i).2.2) w = true
  | .wire b => (row i).1 = 8 ∧ b &&& BitVec.ofNat 8 (row i).2.1 = BitVec.ofNat 8 (row i).2.2

theorem init (r : Rotation) : Statement (.init r) := by
  cases r <;> exact ⟨rfl, by decide⟩

theorem setPixel (val : Bit) (x y : Coord) : Statement (.setPixel val x y) := by
  have h := (selects_valxy 0x1#4 (commandWord 0x1#4 0#2 val x y)).2 (by simp)
  rw [show commandWord 0x1#4 0#2 0#1 0#16 0#16 = 0x1000000000#40 by decide] at h
  exact ⟨rfl, h⟩

theorem getPixel (x y : Coord) : Statement (.getPixel x y) := by
  have h := (selects_xy 0x2#4 (commandWord 0x2#4 0#2 0#1 x y)).2 (by simp)
  rw [show commandWord 0x2#4 0#2 0#1 0#16 0#16 = 0x2000000000#40 by decide] at h
  exact ⟨rfl, h⟩

theorem clearBuffer : Statement .clearBuffer := ⟨rfl, by decide⟩

theorem clearDisplay : Statement .clearDisplay := ⟨rfl, by decide⟩

theorem refresh : Statement .refresh := ⟨rfl, by decide⟩

theorem setRotation (r : Rotation) : Statement (.setRotation r) := by
  cases r <;> exact ⟨rfl, by decide⟩

theorem getWidth : Statement .getWidth := ⟨rfl, by decide⟩

theorem getHeight : Statement .getHeight := ⟨rfl, by decide⟩

theorem wireCmdWrite (v : Bit) : Statement (.wireCmdWrite v) := by
  refine ⟨rfl, ?_⟩
  show writeCommandByte v &&& _ = _
  revert v; decide

theorem wireCmdClear (v : Bit) : Statement (.wireCmdClear v) := by
  refine ⟨rfl, ?_⟩
  show clearCommandByte v &&& _ = _
  revert v; decide

theorem wireLineAddr (l : Byte) : Statement (.wireLineAddr l) := ⟨rfl, BitVec.and_zero⟩

theorem wireData (d : Byte) : Statement (.wireData d) := ⟨rfl, BitVec.and_zero⟩

theorem wireTrailer : Statement .wireTrailer := ⟨rfl, rfl⟩

end Sys2Proof.Laws.EncodingSelectsItsRow
end

