-- ==== Sys2Proof/Laws/Rules.lean ====
section
/-! SUPPORT. The rules of the commands, case by case: a pixel command in and out of range, and the wire
items, a transaction from its assert to the call before its deassert. -/

namespace Sys2Proof.Machine

/-! ## Pixel commands -/

section
variable {s : State} {x y : Coord}

theorem setPixelRule_of_inRange (v : Bit) (h : InRange s.cfg (nativeOf s.cfg s.rot x y)) :
    setPixelRule v x y s = respond .done (setFbBit v (nativeOf s.cfg s.rot x y) s) := by
  rw [setPixelRule, if_pos h]

theorem setPixelRule_of_not (v : Bit) (h : ¬ InRange s.cfg (nativeOf s.cfg s.rot x y)) :
    setPixelRule v x y s = respond .done s := by
  rw [setPixelRule, if_neg h]

theorem getPixelRule_of_inRange (h : InRange s.cfg (nativeOf s.cfg s.rot x y)) :
    getPixelRule x y s = respond (.pixel 1#1 (fbBit s (nativeOf s.cfg s.rot x y))) s := by
  rw [getPixelRule, if_pos h]

theorem getPixelRule_of_not (h : ¬ InRange s.cfg (nativeOf s.cfg s.rot x y)) :
    getPixelRule x y s = respond (.pixel 0#1 0#1) s := by
  rw [getPixelRule, if_neg h]

end

/-- A bit of a blank byte. -/
theorem bitOf_blankByte {k : Nat} (h : k < 8) : bitOf blankByte k = 1#1 := by
  interval_cases k <;> rfl

/-! ## Wire items -/

/-- A wire item in its place is its transport call. -/
theorem sendItem_ok {i : Instr} {s : State} (hm : MidTransaction s) (hw : wireItemAt s = some i) (b : Byte) :
    sendItem i b s = .next (sendTx b s) := by
  simp [sendItem, transactionRuns_of hm, hw]

/-- Everything a wire item can do when it answers a next state. -/
theorem sendItem_next {i : Instr} {b : Byte} {s t : State} (h : sendItem i b s = .next t) :
    MidTransaction s ∧ wireItemAt s = some i ∧ t = sendTx b s := by
  unfold sendItem at h
  split at h
  · next h₁ => cases h; exact ⟨transactionRuns_iff.1 h₁.1, h₁.2, rfl⟩
  · cases h

section
variable {s : State}

theorem afterTx_clearCommand (h : s.pos = .clearCommand) : afterTx s = { s with pos := .clearTrailer } := by
  simp only [afterTx, h]

theorem afterTx_clearTrailer (h : s.pos = .clearTrailer) :
    afterTx s = { s with vcom := flipPolarity s.vcom, pos := .clearDeassert } := by
  simp only [afterTx, h]

theorem afterTx_refreshCommand (h : s.pos = .refreshCommand) :
    afterTx s = { s with vcom := flipPolarity s.vcom, pos := .firstAddress } := by
  simp only [afterTx, h]

theorem afterTx_firstAddress (h : s.pos = .firstAddress) : afterTx s = loopHead 0 { s with prevLine := 1 } := by
  cases s; cases h; rfl

theorem afterTx_data (h : s.pos = .data) :
    afterTx s = if currentLine s ≠ s.prevLine then { s with pos := .lineTrailer }
      else loopHead (s.byteIndex + 1) s := by
  cases s; cases h; rfl

theorem afterTx_lineTrailer (h : s.pos = .lineTrailer) :
    afterTx s = if currentLine s ≤ nativeHeight s.cfg then { s with pos := .lineAddress } else nextTurn s := by
  cases s; cases h; rfl

theorem afterTx_lineAddress (h : s.pos = .lineAddress) : afterTx s = nextTurn s := by
  cases s; cases h; rfl

theorem afterTx_finalTrailer (h : s.pos = .finalTrailer) : afterTx s = { s with pos := .refreshDeassert } := by
  simp only [afterTx, h]

end

/-! ## Transactions -/

section
variable {s : State} {b : Byte}

/-- A clear whose assert succeeded: the state before call k = 1 (R108). -/
theorem startClear_ok (h : nextAnswer s = .ok b) :
    let t := startClear s
    EncoderInv t ∧ t.pos = .clearCommand ∧ currentFrame t = clearFrame s.vcom ∧ t.trace = s.trace ++ [.assertSelect] ∧
    { t with sel := s.sel, pos := s.pos, callPos := s.callPos, busLog := s.busLog,
             answers := s.answers, draws := s.draws } = s ∧
    t.sel = .asserted ∧ t.callPos = 1 ∧ t.answers = s.answers.tail := by
  rw [startClear, openTransaction_ok h]
  exact ⟨⟨rfl, rfl⟩, rfl, rfl, by simp [State.trace], rfl, rfl, rfl, rfl⟩

/-- A refresh whose assert succeeded: the state before step 2 (R113). -/
theorem startRefresh_ok (h : nextAnswer s = .ok b) :
    let t := startRefresh s
    EncoderInv t ∧ t.pos = .refreshCommand ∧ currentFrame t = refreshFrame s.cfg s.vcom s.fb ∧
    t.trace = s.trace ++ [.assertSelect] ∧
    { t with sel := s.sel, pos := s.pos, callPos := s.callPos, busLog := s.busLog,
             answers := s.answers, draws := s.draws } = s ∧
    t.sel = .asserted ∧ t.callPos = 1 ∧ t.answers = s.answers.tail := by
  rw [startRefresh, openTransaction_ok h]
  exact ⟨⟨rfl, rfl⟩, rfl, rfl, by simp [State.trace], rfl, rfl, rfl, rfl⟩

/-- A transaction whose remaining calls succeed: all but the last are made, and the last is its deassert. -/
theorem runCalls_toLast {n : Nat} (hc : configOK s.cfg = true) (hi : EncoderInv s) (hf : s.fault = .noFault)
    (hp : HasCall s.pos) (ha : CallsSucceed (n + 1) s) (hn : s.callPos + (n + 1) = (currentFrame s).length) :
    ∃ t c, Continues n s t ∧ nextAnswer t = .ok c ∧ (t.pos = .clearDeassert ∨ t.pos = .refreshDeassert) ∧
      runCalls (n + 1) s = encoderStep t := by
  have h := runCalls_continues hc hi hf hp (succeed_mono ha (Nat.le_succ n)) (by omega)
  have hone : CallsSucceed 1 (runCalls n s) := by
    unfold CallsSucceed
    rw [h.answers]
    intro a hm
    refine ha a ?_
    rw [List.take_add]
    exact List.mem_append_right _ hm
  obtain ⟨c, hcs⟩ := nextAnswer_of_succeed hone
  refine ⟨_, c, h, hcs, ?_, ?_⟩
  · refine pos_of_last h.encoder h.active ?_
    rw [h.callPos, h.frame]; omega
  · rw [runCalls_add, runCalls_succ (h.fault.trans hf), runCalls_zero]

/-- In a block that can execute a command the encoder is idle. -/
theorem idle_of_ready (hi : EncoderInv s) (hr : Ready s) : s.pos = .idle := by
  unfold EncoderInv at hi
  cases h : s.pos <;> rw [h] at hi <;> first
    | rfl
    | exact absurd hr.1 hi
    | (have h₂ := hi.1; rw [hr.2.2] at h₂; cases h₂)

/-- The answers left after the first of several successful calls. -/
theorem succeed_tail {n : Nat} {t : State} (h : CallsSucceed (n + 1) s) (ht : t.answers = s.answers.tail) :
    CallsSucceed n t := by
  have := succeed_useAnswer h
  unfold CallsSucceed at *
  rwa [ht]

theorem failsAt_tail {k : Nat} {t : State} (h : FailsAt (k + 1) s) (ht : t.answers = s.answers.tail) :
    FailsAt k t := by
  have := failsAt_useAnswer h
  unfold FailsAt CallsSucceed at *
  rwa [ht]

end

end Sys2Proof.Machine
end

