-- ==== Sys2Proof/Tests/Slice0.lean ====
section
/-! SUPPORT. The model's own tests, with expected results from spec/95_test_vectors.md (the vector is named at each
test), and one witness per statement: a concrete state and operands that meet its hypotheses together. -/

namespace Sys2Proof.Tests
open Sys2Proof.Machine

/-! ## Helpers -/

/-- A block of 8×8 pixels, `VCOM_RESET = 0`. -/
def cfg8 : Config := { width := 8#16, height := 8#16, vcomReset := 0#1, clearDisplayClearsBuffer := false }
/-- A block of 16×8 pixels, `VCOM_RESET = 0`. -/
def cfg16 : Config := { width := 16#16, height := 8#16, vcomReset := 0#1, clearDisplayClearsBuffer := false }
/-- A configuration with given `W` and `H`. -/
def cfgOf (w h : BitVec 16) : Config :=
  { width := w, height := h, vcomReset := 0#1, clearDisplayClearsBuffer := false }

/-- A block right after RESET, `FB` blank, no input pending. -/
def fresh (c : Config) (rot : Rotation) : State := State.afterReset c rot [] [] [] 0

/-- A fresh 8×8 block whose next event is `e`. -/
def facing (e : HostEvent) : State := { fresh cfg8 .deg0 with schedule := [e] }

/-- An 8×8 block in mid-transaction: the assert has been made, the encoder is at `p`. -/
def opened (p : EncoderPos) : State :=
  { fresh cfg8 .deg0 with sel := .asserted, pos := p, callPos := 1, busLog := [.assertSelect] }

/-- The next state, where there is one. -/
def next? (o : Host.Outcome State Fault Refusal) : Option State :=
  match o with
  | .next t => some t
  | .fault _ => none
  | .refused _ => none

/-- A transaction as 95_test_vectors.md writes it: `A`, the bytes, `D`. -/
def framed (bytes : List Byte) : List BusEvent := .assertSelect :: bytes.map .tx ++ [.deassertSelect]

/-- The answers of a transport that fails at call `k`. -/
def failsAt (k : Nat) : List Answer := List.replicate k (.ok 0x55#8) ++ [.failed]

/-! ## Well-formedness and configurations -/

/-- The one check of WellFormed.lean refuses a line address of 0 (R63), and nothing else. -/
theorem test_wellFormed : (Instr.wireLineAddr 0#8).wellFormed = false ∧ (Instr.wireLineAddr 1#8).wellFormed = true ∧
    (Instr.wireLineAddr 248#8).wellFormed = true ∧ (Instr.wireData 0#8).wellFormed = true := by decide

/-- V-FAULT, the table of configurations. -/
theorem test_configOK : [cfgOf 128 128, cfgOf 8 8, cfgOf 8 248].all configOK = true ∧
    [cfgOf 0 8, cfgOf 8 0, cfgOf 12 8, cfgOf 8 12, cfgOf 8 256].any configOK = false := by decide

/-! ## Decoding: a word of every row, written out from 30_encoding.md R60 to R67 -/

/-- `init(1)`: 0000 01 0 0 | 0…0 | 0…0 (V-ENC). -/
theorem test_decode_init : decodeCommand 0x0400000000#40 = .ok (.init .deg90) := by decide
/-- `set_pixel(3,5,1)`: 0001 00 0 1 | 0003 | 0005 (V-ENC). -/
theorem test_decode_setPixel : decodeCommand 0x1100030005#40 = .ok (.setPixel 1#1 3#16 5#16) := by decide
/-- `get_pixel(-1,-1)`: 0010 00 0 0 | FFFF | FFFF (V-ENC). -/
theorem test_decode_getPixel : decodeCommand 0x20FFFFFFFF#40 = .ok (.getPixel (-1) (-1)) := by decide
theorem test_decode_clearBuffer : decodeCommand 0x3000000000#40 = .ok .clearBuffer := by decide
theorem test_decode_clearDisplay : decodeCommand 0x4000000000#40 = .ok .clearDisplay := by decide
theorem test_decode_refresh : decodeCommand 0x5000000000#40 = .ok .refresh := by decide
/-- `set_rotation(2)`: 0110 10 0 0 | 0…0 | 0…0 (V-ENC). -/
theorem test_decode_setRotation : decodeCommand 0x6800000000#40 = .ok (.setRotation .deg180) := by decide
theorem test_decode_getWidth : decodeCommand 0x7000000000#40 = .ok .getWidth := by decide
theorem test_decode_getHeight : decodeCommand 0x8000000000#40 = .ok .getHeight := by decide
/-- `0000 00V1` with V = 0, 1 (R60). -/
theorem test_decode_wireCmdWrite : decodeWireAt .command 0b00000001#8 = .ok (.wireCmdWrite 0#1) ∧
    decodeWireAt .command 0b00000011#8 = .ok (.wireCmdWrite 1#1) := by decide
/-- `0000 01V0` with V = 0, 1 (R61). -/
theorem test_decode_wireCmdClear : decodeWireAt .command 0b00000100#8 = .ok (.wireCmdClear 0#1) ∧
    decodeWireAt .command 0b00000110#8 = .ok (.wireCmdClear 1#1) := by decide
theorem test_decode_wireLineAddr : decodeWireAt .lineAddress 1#8 = .ok (.wireLineAddr 1#8) ∧
    decodeWireAt .lineAddress 0#8 = .error .zeroLineAddress := by decide
/-- A data byte equal to a command byte is still data (R65). -/
theorem test_decode_wireData : decodeWireAt .data 0x04#8 = .ok (.wireData 0x04#8) := by decide
theorem test_decode_wireTrailer : decodeWireAt .trailer 0x00#8 = .ok .wireTrailer ∧
    decodeWireAt .trailer 0x01#8 = .error (.nonZeroTrailer 0x01#8) := by decide

/-- V-ENC, the illegal words, each of them refused by name. -/
theorem test_decode_illegal :
    decodeCommand 0x9000000000#40 = .error (.reservedOp 9#4) ∧
    decodeCommand 0xF000000000#40 = .error (.reservedOp 15#4) ∧
    decodeCommand 0x5000000001#40 = .error (.unusedBits 5#4) ∧
    decodeCommand 0x1200030005#40 = .error (.unusedBits 1#4) ∧
    decodeCommand 0x1400030005#40 = .error (.unusedBits 1#4) ∧
    decodeCommand 0x2100030005#40 = .error (.unusedBits 2#4) ∧
    decodeCommand 0x0100000000#40 = .error (.unusedBits 0#4) ∧
    decodeCommand 0x6800000001#40 = .error (.unusedBits 6#4) ∧
    decodeWireAt .command 0x02#8 = .error (.notACommandByte 0x02#8) := by decide

/-- V-ENC: the encoder gives the words of the table. -/
theorem test_encode :
    encode (.init .deg270) = .command 0x0C00000000#40 ∧
    encode (.setPixel 1#1 (-32768) 32767) = .command 0x1180007FFF#40 ∧
    encode (.getPixel 3 5) = .command 0x2000030005#40 ∧
    encode (.setRotation .deg90) = .command 0x6400000000#40 := by decide

/-! ## Operand forms -/

/-- V-ROT, 16×8: corners, and the coordinates just outside the logical rectangle. -/
theorem test_transform :
    transform cfg16 .deg90 0 0 = (15, 0) ∧ transform cfg16 .deg90 7 15 = (0, 7) ∧
    transform cfg16 .deg90 8 0 = (15, 8) ∧ transform cfg16 .deg90 0 16 = (-1, 0) ∧
    transform cfg16 .deg180 3 5 = (12, 2) ∧ transform cfg16 .deg180 (-1) 0 = (16, 7) ∧
    transform cfg16 .deg270 3 5 = (5, 4) ∧ transform cfg16 .deg270 8 0 = (0, -1) ∧
    transform cfg16 .deg270 0 16 = (16, 7) := by decide

/-- V-ADDR. -/
theorem test_bitAddress :
    (byteIndexOf (cfgOf 128 128) (122, 3), bitPositionOf (122, 3)) = (63, 2) ∧
    (byteIndexOf (cfgOf 128 128) (127, 127), bitPositionOf (127, 127)) = (2047, 7) ∧
    (byteIndexOf cfg16 (10, 3), bitPositionOf (10, 3)) = (7, 2) ∧
    (byteIndexOf cfg16 (0, 7), bitPositionOf (0, 7)) = (14, 0) := by decide

/-! ## One step of each command -/

/-- V-SET, 128×128 at 90°: `set_pixel(3,5,0)` on a blank buffer puts 0xFB in `FB[63]`. -/
theorem test_setPixel : (next? (exec (.setPixel 0#1 3 5) (fresh (cfgOf 128 128) .deg90))).map (·.fb) =
    some [(63, 0xFB#8)] := by decide

/-- P2 step 7: `set_pixel(-1,0,0)` at 90° is out of range, and nothing happens. -/
theorem test_setPixel_miss : (next? (exec (.setPixel 0#1 (-1) 0) (fresh cfg16 .deg90))).map
    (fun t => (t.fb, t.responses, t.fault)) = some ([], [.done], .noFault) := by decide

/-- P4 steps 4 and 5, at 180°, with `FB[10] = F7`: another bit than the one written under 0°. -/
theorem test_getPixel :
    (next? (exec (.getPixel 3 5) { fresh cfg16 .deg180 with fb := [(10, 0xF7#8)] })).map (·.responses) =
      some [.pixel 1#1 1#1] ∧
    (next? (exec (.getPixel 12 2) { fresh cfg16 .deg180 with fb := [(10, 0xF7#8)] })).map (·.responses) =
      some [.pixel 1#1 0#1] := by decide

/-- P2 step 9: a miss answers `Pixel(0, 0)`. -/
theorem test_getPixel_miss : (next? (exec (.getPixel 8 0) (fresh cfg16 .deg90))).map (·.responses) =
    some [.pixel 0#1 0#1] := by decide

/-- V-CLR: the buffer all 0xFF, which the canonical form lists as nothing; no transport call. -/
theorem test_clearBuffer : (next? (exec .clearBuffer { fresh cfg8 .deg0 with fb := [(0, 0x00#8), (7, 0x7F#8)] })).map
    (fun t => (t.fb, t.trace, t.vcom)) = some ([], [], 0#1) := by decide

/-- P1 step 1 and R132's example: `init(2)`. -/
theorem test_init : (next? (exec (.init .deg180) { fresh cfg8 .deg0 with fb := [(3, 0x12#8)], vcom := 1#1 })).map
    (fun t => (t.fb, t.rot, t.vcom, t.trace)) = some ([], .deg180, 1#1, []) := by decide

/-- P4 step 3. -/
theorem test_setRotation : (next? (exec (.setRotation .deg180) { fresh cfg16 .deg0 with fb := [(10, 0xF7#8)] })).map
    (fun t => (t.rot, t.fb, t.responses)) = some (.deg180, [(10, 0xF7#8)], [.done]) := by decide

/-- V-DIM, 16×8. -/
theorem test_getWidth :
    [Rotation.deg0, .deg90, .deg180, .deg270].map (fun r => (next? (exec .getWidth (fresh cfg16 r))).map (·.responses)) =
      [some [.dim 16], some [.dim 8], some [.dim 16], some [.dim 8]] := by decide

/-- V-DIM, 16×8. -/
theorem test_getHeight :
    [Rotation.deg0, .deg90, .deg180, .deg270].map (fun r => (next? (exec .getHeight (fresh cfg16 r))).map (·.responses)) =
      [some [.dim 8], some [.dim 16], some [.dim 8], some [.dim 16]] := by decide

/-- S1: from `vcom = 1`, `A 06 00 D`, and `vcom` 0. -/
theorem test_clearDisplay : (next? (exec .clearDisplay { fresh cfg8 .deg0 with vcom := 1#1 })).map
    (fun t => (t.trace, t.vcom, t.sel)) = some (framed [0x06, 0x00], 0#1, .deasserted) := by decide

/-- V-FAULT: `clear_display()` whose trailer (k = 2) fails. -/
theorem test_clearDisplay_fails : (next? (exec .clearDisplay { fresh cfg8 .deg0 with answers := failsAt 2 })).map
    (fun t => (t.trace, t.sel, t.vcom, t.fault)) =
      some ([.assertSelect, .tx 0x04], .asserted, 0#1, .transportFault 2) := by decide

/-- P1 step 4, 8×8. -/
theorem test_refresh : (next? (exec .refresh { fresh cfg8 .deg0 with fb := [(0, 0xFE#8), (7, 0x7F#8)] })).map
    (fun t => (t.trace, t.vcom, t.sel)) =
      some (framed [0x01, 0x01, 0xFE, 0x00, 0x02, 0xFF, 0x00, 0x03, 0xFF, 0x00, 0x04, 0xFF, 0x00, 0x05, 0xFF, 0x00,
        0x06, 0xFF, 0x00, 0x07, 0xFF, 0x00, 0x08, 0x7F, 0x00, 0x00], 1#1, .deasserted) := by decide

/-- V-FAULT: `refresh()` whose first address (k = 2) fails: `vcom` has flipped. -/
theorem test_refresh_fails : (next? (exec .refresh { fresh cfg8 .deg0 with answers := failsAt 2 })).map
    (fun t => (t.trace, t.sel, t.vcom, t.fault)) =
      some ([.assertSelect, .tx 0x01], .asserted, 1#1, .transportFault 2) := by decide

/-! ## One step of each wire item -/

/-- R113: 0x03 is sent with `vcom = 1`, then `vcom` is 0. -/
theorem test_wireCmdWrite : (next? (exec (.wireCmdWrite 1#1) { opened .refreshCommand with vcom := 1#1 })).map
    (fun t => (t.trace, t.vcom, t.pos)) = some ([.assertSelect, .tx 0x03], 0#1, .firstAddress) := by decide

/-- R108: 0x04 is sent with `vcom = 0`, and `vcom` has not flipped yet. -/
theorem test_wireCmdClear : (next? (exec (.wireCmdClear 0#1) (opened .clearCommand))).map
    (fun t => (t.trace, t.vcom, t.pos)) = some ([.assertSelect, .tx 0x04], 0#1, .clearTrailer) := by decide

/-- R115, 8×8: after the trailer of line 1 the address 2. -/
theorem test_wireLineAddr : (next? (exec (.wireLineAddr 2#8) { opened .lineAddress with prevLine := 1 })).map
    (fun t => (t.trace, t.byteIndex, t.prevLine, t.pos)) = some ([.assertSelect, .tx 0x02], 1, 2, .data) := by decide

/-- R115, 16×8: the second byte of line 1 ends the line; the first does not (V-REF, the table of `currentLine`). -/
theorem test_wireData :
    (next? (exec (.wireData 0xFF#8) { opened .data with cfg := cfg16, byteIndex := 0, prevLine := 1 })).map
      (fun t => (t.byteIndex, t.pos)) = some (1, .data) ∧
    (next? (exec (.wireData 0xFF#8) { opened .data with cfg := cfg16, byteIndex := 1, prevLine := 1 })).map
      (fun t => (t.byteIndex, t.pos)) = some (1, .lineTrailer) := by decide

/-- R115 and R116, 8×8: after the last line's trailer no address, and the final trailer is next. -/
theorem test_wireTrailer : (next? (exec .wireTrailer { opened .lineTrailer with byteIndex := 7, prevLine := 8 })).map
    (fun t => (t.byteIndex, t.prevLine, t.pos)) = some (8, 9, .finalTrailer) := by decide

/-! ## Steps -/

/-- V-FAULT: in mid-transaction an arriving `set_pixel(0,0,0)` raises TxnOverlap with its `op`; `FB` unchanged. -/
theorem test_overlap : (next? (step { opened .data with schedule := [.command 0x1000000000#40] })).map
    (fun t => (t.fault, t.responses, t.fb)) = some (.txnOverlap 1#4, [.fault 4], []) := by decide

/-- V-ENC: an illegal word raises IllegalCommand with the word. -/
theorem test_illegal : (next? (step (facing (.command 0x5000000001#40)))).map (fun t => (t.fault, t.responses)) =
    some (.illegalCommand 0x5000000001#40, [.fault 5]) := by decide

/-- R121 and R144: an illegal word in mid-transaction leaves `sel` and the trace, and the next byte is sent after it;
the fault stays recorded. -/
theorem test_illegal_midTransaction :
    (next? (step { opened .firstAddress with schedule := [.command 0xF000000000#40] })).map
      (fun t => (t.fault, t.sel, t.trace, (next? (step t)).map (fun u => (u.fault, u.trace)))) =
    some (.illegalCommand 0xF000000000#40, .asserted, [.assertSelect],
      some (.illegalCommand 0xF000000000#40, [.assertSelect, .tx 0x01])) := by decide

/-- V-FAULT: after a fault `set_pixel(0,0,0)` answers `Fault(3)` and changes nothing. -/
theorem test_sticky : (next? (step { facing (.command 0x1000000000#40) with fault := .transportFault 3 })).map
    (fun t => (t.fault, t.responses, t.fb)) = some (.transportFault 3, [.fault 3], []) := by decide

/-- R160: RESET with a buffer that comes up as given; a byte beyond `N - 1` goes nowhere. -/
theorem test_reset : (next? (step (facing (.reset .deg270 [0x01, 0xFF, 0x03, 4, 5, 6, 7, 8, 9])))).map
    (fun t => (t.rot, t.fb, t.fault, t.sel)) =
      some (.deg270, [(0, 1), (2, 3), (3, 4), (4, 5), (5, 6), (6, 7), (7, 8)], .noFault, .deasserted) := by decide

/-- A placed command word is run by the very next step. -/
theorem test_withFetchWord : decodeTableWord 40 0x6400000000 = some (.setRotation .deg90) ∧
    (next? (step (State.reset.withFetchWord 40 0x6400000000))).map (·.rot) = some .deg90 := by decide

/-- A placed wire byte is sent by the very next step. -/
theorem test_withFetchWord_wire : decodeTableWord 8 0x06 = some (.wireCmdClear 1#1) ∧
    (next? (step (State.reset.withFetchWord 8 0x06))).map (·.trace) = some [.tx 0x06] ∧
    (next? (step (State.reset.withFetchWord 8 0x05))).map (·.trace) = some [.tx 0x05] ∧
    (next? (step (State.reset.withFetchWord 8 0xFF))).map (·.trace) = some [.tx 0xFF] ∧
    (next? (step (State.reset.withFetchWord 8 0x00))).map (·.trace) = some [.tx 0x00] := by decide

/-! ## Witnesses: for each statement, concrete states and operands that meet its hypotheses together -/

/-- The 8×8 block of the witnesses, at 0°. -/
def idle8 : State := fresh cfg8 .deg0

theorem ready_fresh (r : Rotation) : Ready (fresh cfg8 r) ∧ Ready (fresh cfg16 r) :=
  ⟨⟨rfl, show configOK cfg8 = true by decide, rfl⟩, rfl, show configOK cfg16 = true by decide, rfl⟩

theorem calls_fresh (n : Nat) (c : Config) (r : Rotation) : CallsSucceed n (fresh c r) := by
  simp [CallsSucceed, fresh, State.afterReset]

theorem calls_opened (n : Nat) (p : EncoderPos) : CallsSucceed n (opened p) := by
  simp [CallsSucceed, opened, fresh, State.afterReset]

/-- A transport that fails at call `k`, for the first calls, the last of a clear and the last of an 8×8 refresh. -/
theorem fails_fresh : ∀ k ∈ [0, 1, 2, 3, 27], FailsAt k { idle8 with answers := failsAt k } := by
  simp only [List.forall_mem_cons, FailsAt, CallsSucceed]
  decide

theorem inv_idle8 : Inv idle8 ∧ PolarityInv idle8 ∧ TraceInv idle8 :=
  ⟨⟨⟨rfl, by decide⟩, fun h => absurd h (by decide), rfl, by decide⟩, fun _ => by decide,
    fun _ => ⟨[], ⟨[], rfl, by simp⟩, rfl⟩⟩

/-- In mid-transaction: after the assert of a clear and of a refresh. -/
theorem inv_opened : ∀ p ∈ [EncoderPos.clearCommand, .refreshCommand],
    Inv (opened p) ∧ PolarityInv (opened p) ∧ TraceInv (opened p) := by
  simp only [List.forall_mem_cons]
  refine ⟨⟨⟨⟨rfl, by decide⟩, fun h => absurd h (by decide), ⟨rfl, rfl⟩, by decide⟩, fun _ => by decide, fun _ => ⟨[], ⟨[], rfl, by simp⟩, rfl⟩⟩,
    ⟨⟨⟨rfl, by decide⟩, fun h => absurd h (by decide), ⟨rfl, rfl⟩, by decide⟩, fun _ => by decide, fun _ => ⟨[], ⟨[], rfl, by simp⟩, rfl⟩⟩, by simp⟩

/-- In mid-refresh: before the first data byte, and before the address of line 8 of 8. -/
theorem inv_midRefresh :
    Inv { opened .data with callPos := 3, byteIndex := 0, prevLine := 1 } ∧
    Inv { opened .lineAddress with callPos := 23, byteIndex := 6, prevLine := 7 } :=
  ⟨⟨⟨rfl, by decide⟩, fun h => absurd h (by decide), ⟨rfl, 0, 0, by decide⟩, by decide⟩,
    ⟨⟨rfl, by decide⟩, fun h => absurd h (by decide), ⟨rfl, 6, by decide⟩, by decide⟩⟩

/-- Every form of an event, as hypotheses on `schedule` (also: a RESET of a malformed configuration, and a state with
nothing scheduled). -/
theorem witness_schedules :
    (facing (.reset .deg90 [0xAA#8])).schedule = [.reset .deg90 [0xAA#8]] ∧
    (facing .quiet).schedule = [.quiet] ∧ (facing .quiet).sel = .deasserted ∧
    idle8.schedule = [] ∧ idle8.sel = .deasserted ∧
    Arrives 0x5000000000#40 [] (facing (.command 0x5000000000#40)) ∧
    Arrives 0x5000000000#40 [] (facing (.commandByCalls 0x5000000000#40)) :=
  ⟨rfl, rfl, rfl, rfl, rfl, .inl rfl, .inr rfl⟩

/-- ResetEventLeavesTheResetValues: the first byte, the last of `N` and one past it. -/
theorem witness_resetBytes : ∀ a ∈ [0, 7],
    a < bufferBytes (facing .quiet).cfg ∧ a < [1#8, 2#8, 3#8, 4#8, 5#8, 6#8, 7#8, 8#8, 9#8].length := by decide

/-- StepKeepsTheParameters, StepKeepsTheStateInvariant and the two after it: a step that answers. -/
theorem witness_step : (∃ t, step idle8 = .next t) ∧ ∃ t, step (opened .refreshCommand) = .next t :=
  ⟨⟨_, rfl⟩, ⟨_, rfl⟩⟩

/-- StepAnswersUnlessTwoCommandsAtOnce: a state that meets the invariant, of each kind. -/
theorem witness_together : Inv (facing (.together 0x7000000000#40 0x8000000000#40)) ∧
    GoodEnd (facing (.together 0x7000000000#40 0x8000000000#40)) ∧
    step (facing (.together 0x7000000000#40 0x8000000000#40)) = .fault .concurrentCommands :=
  ⟨⟨⟨rfl, by decide⟩, fun h => absurd h (by decide), rfl, by decide⟩, ⟨rfl, rfl⟩, rfl⟩

/-- StepRunsTheDecodedInstruction, its three clauses. -/
theorem witness_stepRuns :
    ((facing (.command 0x4000000000#40)).schedule = [.command 0x4000000000#40] ∧
      decodeCommand 0x4000000000#40 = .ok .clearDisplay) ∧
    ((opened .clearCommand).schedule = [] ∧ MidTransaction (opened .clearCommand) ∧ wireItemAt (opened .clearCommand) = some (.wireCmdClear 0#1)) ∧
    ((facing (.commandByCalls 0x7000000000#40)).schedule = [.commandByCalls 0x7000000000#40] ∧
      decodeCommand 0x7000000000#40 = .ok .getWidth ∧ startsTransaction .getWidth = false) :=
  ⟨⟨rfl, by decide⟩, ⟨rfl, ⟨.inl rfl, rfl, by decide⟩, rfl⟩, rfl, by decide, rfl⟩

/-- FaultedBlockAnswersOnlyItsFault and OnlyResetClearsAFault: a legal and an illegal word at a faulted block. -/
theorem witness_faulted : ∀ w ∈ [0x3000000000#40, 0xF000000000#40],
    ({ facing (.command w) with fault := .txnOverlap 1#4 } : State).fault ≠ .noFault ∧
    Arrives w [] { facing (.command w) with fault := .txnOverlap 1#4 } ∧
    (∃ t, step { facing (.command w) with fault := .txnOverlap 1#4 } = .next t) ∧
    (∀ rot bytes rest, (facing (.command w)).schedule ≠ .reset rot bytes :: rest) := by
  simp only [List.forall_mem_cons]
  exact ⟨⟨by decide, .inl rfl, ⟨_, rfl⟩, by simp [facing]⟩, ⟨by decide, .inl rfl, ⟨_, rfl⟩, by simp [facing]⟩, by simp⟩

/-- UnmatchedWordRaisesIllegalCommand: the lowest and highest reserved `op`, an unused bit, reserved bit 33 (V-ENC). -/
theorem witness_unmatched : ∀ w ∈ [0x9000000000#40, 0xF000000000#40, 0x5000000001#40, 0x1200030005#40],
    MatchesNoRow w ∧ Arrives w [] (facing (.commandByCalls w)) ∧ (facing (.commandByCalls w)).fault = .noFault := by
  simp only [List.forall_mem_cons, MatchesNoRow, commandRows, Arrives]
  simp [facing, fresh, State.afterReset, cfg8, configOK, nativeWidth, nativeHeight]

/-- CommandInMidTransactionRaisesTxnOverlap. -/
theorem witness_overlap :
    (opened .data).fault = .noFault ∧ configOK (opened .data).cfg = true ∧ (opened .data).sel = .asserted ∧
    decodeCommand 0x8000000000#40 = .ok .getHeight ∧
    Arrives 0x8000000000#40 [] { opened .data with schedule := [.command 0x8000000000#40] } :=
  ⟨rfl, by decide, rfl, by decide, .inl rfl⟩

/-- CommandsAtOnceHaveNoStepWhenIdle, its second clause: two commands at once at `sel = 1`. -/
theorem witness_atOnceAsserted :
    ({ opened .data with schedule := [.together 0x8000000000#40 0x7000000000#40] } : State).schedule =
      [.together 0x8000000000#40 0x7000000000#40] ∧
    (opened .data).fault = .noFault ∧ configOK (opened .data).cfg = true ∧ (opened .data).sel = .asserted ∧
    decodeCommand 0x8000000000#40 = .ok .getHeight ∧
    (next? (step { opened .data with schedule := [.together 0x8000000000#40 0x7000000000#40] })).map
      (fun t => (t.fault, t.responses)) = some (.txnOverlap 8#4, [.fault 4, .fault 4]) := by decide

/-- IllegalWordDoesNotStopTheTransaction: a call that succeeds, and one that fails. -/
theorem witness_illegalGoesOn :
    (opened .firstAddress).fault = .noFault ∧ (opened .firstAddress).sel = .asserted ∧
    (opened .firstAddress).schedule = [] ∧ (∃ u, step (opened .firstAddress) = .next u ∧ u.fault = .noFault) ∧
    ∃ u, step { opened .firstAddress with answers := [.failed] } = .next u ∧ u.fault = .transportFault 1 :=
  ⟨rfl, rfl, rfl, ⟨_, rfl, rfl⟩, _, rfl, rfl⟩

/-- OnlyResetClearsAFault and WireItemThatFailsFreezesTheState (R27, R104): a call that fails after an illegal word
leaves IllegalCommand recorded, answers Fault(3), and is the last call. -/
theorem witness_illegalThenFails :
    MidTransaction { opened .firstAddress with fault := .illegalCommand 0xF000000000#40, answers := [.failed] } ∧
    (next? (step { opened .firstAddress with fault := .illegalCommand 0xF000000000#40, answers := [.failed] })).map
      (fun t => (t.fault, t.responses, t.pos, (next? (step t)).map (·.trace))) =
    some (.illegalCommand 0xF000000000#40, [.fault 3], .stopped, some [.assertSelect]) :=
  ⟨⟨.inr ⟨_, rfl⟩, rfl, by decide⟩, by decide⟩

/-- CommandsAtOnceHaveNoStepWhenIdle, its first clause. -/
theorem witness_atOnce : (facing (.together 0#40 0#40)).schedule = [.together 0#40 0#40] ∧
    (facing (.together 0#40 0#40)).fault = .noFault ∧ (facing (.together 0#40 0#40)).sel = .deasserted :=
  ⟨rfl, rfl, rfl⟩

/-- MalformedConfigurationAnswersConfigFault: each way of being malformed, at its boundary (V-FAULT). -/
theorem witness_malformed :
    (cfgOf 0 8).width.toNat = 0 ∧ (cfgOf 8 0).height.toNat = 0 ∧ (cfgOf 12 8).width.toNat % 8 ≠ 0 ∧
    (cfgOf 8 12).height.toNat % 8 ≠ 0 ∧ 255 < (cfgOf 8 256).height.toNat := by decide

/-- The hypotheses on a configuration and a native coordinate: all four corners of 16×8, in range and just outside. -/
theorem witness_inRange : configOK cfg16 = true ∧
    (∀ q ∈ [((0 : Int), (0 : Int)), (15, 0), (0, 7), (15, 7)], InRange cfg16 q) ∧
    (∀ q ∈ [((-1 : Int), (0 : Int)), (16, 0), (0, -1), (0, 8)], ¬ InRange cfg16 q) := by decide

/-- TransformIsABijectionOfRectangles, at 90°: the edges of the logical rectangle 8×16 and the first columns outside. -/
theorem witness_logical :
    InRange cfg16 (transform cfg16 .deg90 7 15) ∧ ¬ InRange cfg16 (transform cfg16 .deg90 8 15) ∧
    ¬ InRange cfg16 (transform cfg16 .deg90 7 16) ∧ ¬ InRange cfg16 (transform cfg16 .deg90 (-1) 0) := by decide

/-- BitAddressIsABijection: two different addresses and the last pair `(idx, k)`. -/
theorem witness_bitAddress : configOK cfg16 = true ∧ 15 < cfg16.width.toNat ∧ 7 < cfg16.height.toNat ∧
    byteIndexOf cfg16 (15, 7) = byteIndexOf cfg16 (8, 7) ∧ bitPositionOf (15, 7) ≠ bitPositionOf (8, 7) ∧
    15 < cfg16.width.toNat * cfg16.height.toNat / 8 := by decide

/-- The pixel statements: a hit at a corner, a miss one column outside, at 90°. -/
theorem witness_pixel : Ready (fresh cfg16 .deg90) ∧ Memory.wf (fresh cfg16 .deg90).fb = true ∧
    InRange cfg16 (transform cfg16 .deg90 (7 : Coord).toInt (15 : Coord).toInt) ∧
    ¬ InRange cfg16 (transform cfg16 .deg90 (8 : Coord).toInt (0 : Coord).toInt) :=
  ⟨(ready_fresh .deg90).2, rfl, by decide, by decide⟩

/-- SetPixelChangesAtMostOneBit: a step that answers, and another pixel of the same byte. -/
theorem witness_pixelFrame : (∃ t, exec (.setPixel 0#1 0 0) (fresh cfg16 .deg0) = .next t) ∧
    InRange cfg16 (1, 0) ∧ ((1, 0) : Int × Int) ≠ transform cfg16 .deg0 (0 : Coord).toInt (0 : Coord).toInt :=
  ⟨⟨_, rfl⟩, by decide, by decide⟩

/-- PixelWrittenIsThePixelRead: the last pixel of the logical rectangle at each rotation. -/
theorem witness_logicalEdge : ∀ r ∈ [Rotation.deg0, .deg90, .deg180, .deg270],
    Ready (fresh cfg16 r) ∧ Memory.wf (fresh cfg16 r).fb = true ∧
    ((logicalWidth cfg16 r - 1).toInt < (logicalWidth cfg16 r).toNat ∧ 0 ≤ (logicalWidth cfg16 r - 1).toInt) ∧
    ((logicalHeight cfg16 r - 1).toInt < (logicalHeight cfg16 r).toNat ∧ 0 ≤ (logicalHeight cfg16 r - 1).toInt) := by
  intro r _
  refine ⟨(ready_fresh r).2, rfl, ?_⟩
  cases r <;> decide

/-- The statements of commands without a coordinate: ClearBuffer, SetRotation, Init, DimensionQueries,
OtherCommandsMakeNoTransportCall, and with answers the CLEAR_DISPLAY and REFRESH ones (8×8: 28 calls). -/
theorem witness_commands : Ready idle8 ∧ Memory.wf idle8.fb = true ∧ idle8.vcom = 0#1 ∧
    CallsSucceed (2 * (4 + nativeHeight idle8.cfg * (bytesPerLine idle8.cfg + 2))) idle8 ∧
    (∃ t, exec .getWidth idle8 = .next t) ∧ Instr.getWidth.isCommand = true ∧ startsTransaction .getWidth = false :=
  ⟨(ready_fresh .deg0).1, rfl, rfl, calls_fresh _ _ _, ⟨_, rfl⟩, rfl, rfl⟩

/-- ClearDisplayStopsAtTheFailingCall and RefreshStopsAtTheFailingCall: the first, middle and last call. -/
theorem witness_fails : (∀ k ∈ [0, 1, 2, 3], Ready { idle8 with answers := failsAt k } ∧ k < 4) ∧
    (∀ k ∈ [0, 1, 2, 27], k < 4 + nativeHeight idle8.cfg * (bytesPerLine idle8.cfg + 2)) :=
  ⟨fun k hk => ⟨(ready_fresh .deg0).1, by revert k; decide⟩, by decide⟩

/-- RefreshAddressesEveryLineInOrder: the first and the last line. -/
theorem witness_lines : ∀ l ∈ [1, 8], 1 ≤ l ∧ l ≤ nativeHeight idle8.cfg := by decide

/-- RefreshSendsThePixelWritten: the last pixel. -/
theorem witness_written : transform cfg8 .deg0 (7 : Coord).toInt (7 : Coord).toInt = (((7 : Nat) : Int), ((7 : Nat) : Int)) ∧
    7 < nativeWidth cfg8 ∧ 7 < nativeHeight cfg8 := by decide

/-- EncoderIsAPureFunction: two different blocks with the same polarity, size and buffer. -/
theorem witness_pure : Ready idle8 ∧ Ready { fresh cfg8 .deg90 with busLog := [.deassertSelect] } ∧
    CallsSucceed 28 idle8 ∧ CallsSucceed 28 { fresh cfg8 .deg90 with busLog := [.deassertSelect] } ∧
    idle8.vcom = (fresh cfg8 .deg90).vcom ∧
    (∀ a, a < bufferBytes idle8.cfg → readByte idle8.fb a = readByte (fresh cfg8 .deg90).fb a) :=
  ⟨(ready_fresh .deg0).1, (ready_fresh .deg90).1, calls_fresh _ cfg8 .deg0, calls_fresh _ cfg8 .deg90, rfl, fun _ _ => rfl⟩

/-- VcomChangesOnlyInTransactionsAndReset: a step that changes `vcom`, for each of the three reasons. -/
theorem witness_vcom :
    (∃ t, step { facing (.reset .deg0 []) with vcom := 1#1 } = .next t ∧ t.vcom ≠ 1#1) ∧
    (∃ t, step (facing (.command 0x4000000000#40)) = .next t ∧ t.vcom ≠ 0#1) ∧
    (∃ t, step (opened .refreshCommand) = .next t ∧ t.vcom ≠ 0#1) :=
  ⟨⟨_, rfl, by decide⟩, ⟨_, rfl, by decide⟩, ⟨_, rfl, by decide⟩⟩

/-- CallByCallEqualsTheAtomicCommand, for both commands. -/
theorem witness_callByCall : Ready idle8 ∧ idle8.schedule = [] ∧
    startsTransaction .clearDisplay = true ∧ encode .clearDisplay = .command 0x4000000000#40 ∧
    startsTransaction .refresh = true ∧ encode .refresh = .command 0x5000000000#40 :=
  ⟨(ready_fresh .deg0).1, rfl, rfl, by decide, rfl, by decide⟩

/-- RefreshFlipsVcomRightAfterItsCommandByte, both clauses. -/
theorem witness_flip :
    (Ready { idle8 with schedule := [.commandByCalls 0x5000000000#40, .quiet] } ∧
      CallsSucceed 2 { idle8 with schedule := [.commandByCalls 0x5000000000#40, .quiet] }) ∧
    (wireItemAt (opened .data) = some (.wireData 0xFF#8) ∧ (∃ t, exec (.wireData 0xFF#8) (opened .data) = .next t) ∧
      (opened .data).pos ≠ .refreshCommand ∧ (opened .data).pos ≠ .clearTrailer) :=
  ⟨⟨(ready_fresh .deg0).1, calls_fresh _ cfg8 .deg0⟩, rfl, ⟨_, rfl⟩, by decide, by decide⟩

/-- The wire item statements: each item in its place, with no fault and with an illegal word recorded, with a
transport that answers and with one that fails. -/
theorem witness_wire : ∀ p ∈ [EncoderPos.clearCommand, .clearTrailer, .refreshCommand, .firstAddress, .data, .lineTrailer,
      .lineAddress, .finalTrailer],
    MidTransaction (opened p) ∧ MidTransaction { opened p with fault := .illegalCommand 0xF000000000#40 } ∧ (opened p).pos = p ∧ CallsSucceed 1 (opened p) ∧
    (∃ i, wireItemAt (opened p) = some i) ∧ FailsAt 0 { opened p with answers := [.failed] } := by
  intro p hp
  have hs : p ≠ .stopped := by revert p; decide
  refine ⟨⟨.inl rfl, rfl, hs⟩, ⟨.inr ⟨_, rfl⟩, rfl, hs⟩, rfl, calls_opened _ _, ?_, by simp [CallsSucceed], rfl⟩
  clear hs
  revert p
  simp only [List.forall_mem_cons]
  exact ⟨⟨_, rfl⟩, ⟨_, rfl⟩, ⟨_, rfl⟩, ⟨_, rfl⟩, ⟨_, rfl⟩, ⟨_, rfl⟩, ⟨_, rfl⟩, ⟨_, rfl⟩, by simp⟩

/-- The last clauses of the wire item statements, where the item answers a next state. -/
theorem witness_wireNext :
    (∃ t, exec (.wireCmdWrite 0#1) (opened .refreshCommand) = .next t) ∧
    (∃ t, exec (.wireCmdClear 0#1) (opened .clearCommand) = .next t) ∧
    (∃ t, exec (.wireLineAddr 8#8) { opened .lineAddress with callPos := 23, byteIndex := 6, prevLine := 7 } = .next t) ∧
    (∃ t, exec (.wireData 0xFF#8) (opened .data) = .next t) ∧ (∃ t, exec .wireTrailer (opened .finalTrailer) = .next t) :=
  ⟨⟨_, rfl⟩, ⟨_, rfl⟩, ⟨_, rfl⟩, ⟨_, rfl⟩, ⟨_, rfl⟩⟩

/-- LineAddressByte and DataByte, 16×8, by V-REF's table of `currentLine`: 8 is the last address sent, 9 is not; the
first byte of a line does not change the line, the second does. -/
theorem witness_currentLine : (13 + 1) / bytesPerLine cfg16 + 1 = 8 ∧ (15 + 1) / bytesPerLine cfg16 + 1 = 9 ∧
    8 ≤ nativeHeight cfg16 ∧ nativeHeight cfg16 < 9 ∧ 15 < bufferBytes cfg16 ∧
    (0 + 1) / bytesPerLine cfg16 + 1 = 1 ∧ (1 + 1) / bytesPerLine cfg16 + 1 ≠ 1 := by decide

/-- WireItemOutOfPlaceIsRefused: a trailer where data is next, and where nothing is. -/
theorem witness_outOfPlace : Instr.wireTrailer.isCommand = false ∧ wireItemAt (opened .data) ≠ some .wireTrailer ∧
    wireItemAt idle8 ≠ some .wireTrailer := by decide

/-- ReturnedBytesAreIgnored: other returned bytes. -/
theorem witness_returned :
    [Answer.ok 1#8, .failed].map (fun a => decide (a = .failed)) =
      ({ idle8 with answers := [.ok 0x55#8, .failed] } : State).answers.map (fun a => decide (a = .failed)) ∧
    ∃ t, exec .refresh { idle8 with answers := [.ok 0x55#8, .failed] } = .next t :=
  ⟨by decide, ⟨_, rfl⟩⟩

/-- The encoding statements: the least and greatest line address; a word and a byte that decode; a reserved `op`. -/
theorem witness_encoding : (Instr.wireLineAddr 1#8).wellFormed = true ∧ (Instr.wireLineAddr 0xFF#8).wellFormed = true ∧
    decodeCommand 0x1180007FFF#40 = .ok (.setPixel 1#1 (-32768) 32767) ∧
    decodeWireAt .trailer 0x00#8 = .ok .wireTrailer ∧
    9 ≤ ((0x9000000000#40 : CmdWord).extractLsb' 36 4).toNat := by decide

end Sys2Proof.Tests
end

