-- ==== Sys2Proof/Proofs/State.lean ====
section
/-! SUPPORT. What a refresh sends and leaves unchanged, and that only the two transaction commands write `vcom`
(10_state.md R21). -/

namespace Sys2Proof.Machine

/-! ## What a command keeps -/

/-- A command whose rule keeps a register that no raised fault touches keeps it in every outcome. -/
theorem exec_keeps {α : Type} (get : State → α) (hrespond : ∀ r s, get (respond r s) = get s)
    (hraise : ∀ f s, get (raiseFault f s) = get s) {i : Instr} (hi : i.isCommand = true) {s t : State}
    (hrule : get (commandRule i s) = get s) (h : exec i s = .next t) : get t = get s := by
  rcases exec_cases hi h with ⟨-, rfl⟩ | ⟨-, -, -, rfl⟩ | ⟨-, rfl⟩
  · rw [respondSticky_eq, hrespond]
  · exact hraise _ _
  · exact hrule

/-! ## The buffer during a refresh -/

/-- The positions outside a clear: the end of a clear is the one place where the encoder writes `FB` (R108). -/
def OutsideClear (p : EncoderPos) : Prop := p ≠ .clearCommand ∧ p ≠ .clearTrailer ∧ p ≠ .clearDeassert

theorem outsideClear_afterTx {s : State} (h : OutsideClear s.pos) : OutsideClear (afterTx s).pos := by
  obtain ⟨h₁, h₂, h₃⟩ := h
  cases hp : s.pos
  case clearCommand => exact absurd hp h₁
  case clearTrailer => exact absurd hp h₂
  case clearDeassert => exact absurd hp h₃
  all_goals
    simp only [afterTx, hp, nextTurn, loopHead]
    repeat' split
    all_goals simp [OutsideClear]

/-- A call of a refresh keeps `FB`, whatever the transport answers, and is followed by no call of a clear. -/
theorem encoderStep_outsideClear {s : State} (h : OutsideClear s.pos) :
    (encoderStep s).fb = s.fb ∧ OutsideClear (encoderStep s).pos := by
  by_cases hc : HasCall s.pos
  · rcases nextAnswer_cases s with ⟨b, hb⟩ | hf
    · cases ht : txPos s.pos
      case true =>
        rw [encoderStep_sent hb ht]
        exact ⟨by simp, outsideClear_afterTx (by simpa using h)⟩
      case false =>
        have hp : s.pos = .refreshDeassert := by
          cases hp : s.pos <;> simp_all [txPos, OutsideClear]
        rw [encoderStep_refreshDeassert hp, endRefresh, closeTransaction_ok hb]
        exact ⟨rfl, by simp [OutsideClear]⟩
    · rw [encoderStep_failed hf hc]
      exact ⟨rfl, by simp [failCall, OutsideClear]⟩
  · rw [encoderStep_none hc]
    exact ⟨rfl, h⟩

theorem runCalls_fb_of_outsideClear {s : State} (h : OutsideClear s.pos) (n : Nat) : (runCalls n s).fb = s.fb := by
  induction n generalizing s with
  | zero => rfl
  | succ n ih =>
    obtain ⟨hfb, hp⟩ := encoderStep_outsideClear h
    by_cases hf : s.fault = .noFault
    · rw [runCalls_succ hf, ih hp, hfb]
    · rw [runCalls_faulted hf]

theorem startRefresh_outsideClear (s : State) :
    (startRefresh s).fb = s.fb ∧ OutsideClear (startRefresh s).pos := by
  rcases nextAnswer_cases s with ⟨b, hb⟩ | hf
  · rw [startRefresh, openTransaction_ok hb]
    exact ⟨rfl, by simp [OutsideClear]⟩
  · rw [startRefresh, openTransaction_failed hf]
    exact ⟨rfl, by simp [failCall, OutsideClear]⟩

@[simp] theorem refreshRule_fb (s : State) : (refreshRule s).fb = s.fb := by
  obtain ⟨hfb, hp⟩ := startRefresh_outsideClear s
  rw [refreshRule, runCalls_fb_of_outsideClear hp, hfb]

/-! ## The writers of `vcom` -/

theorem commandRule_vcom {i : Instr} (h : startsTransaction i = false) (s : State) :
    (commandRule i s).vcom = s.vcom := by
  cases i
  case clearDisplay => cases h
  case refresh => cases h
  case setPixel val x y =>
    simp only [commandRule, setPixelRule, respond_vcom]
    split
    · exact setFbBit_vcom ..
    · rfl
  all_goals rfl

/-! ## What a refresh sends -/

/-- Closing a transaction of either command adds its deassert to the trace and nothing else (R103). -/
theorem encoderStep_deassert_trace {s : State} {b : Byte} (hb : nextAnswer s = .ok b)
    (hp : s.pos = .clearDeassert ∨ s.pos = .refreshDeassert) :
    (encoderStep s).trace = s.trace ++ [.deassertSelect] := by
  rcases hp with hp | hp
  · rw [encoderStep_clearDeassert hp, endClear, closeTransaction_ok hb]
    split <;> simp [State.trace]
  · rw [encoderStep_refreshDeassert hp, endRefresh, closeTransaction_ok hb]
    simp [State.trace]

/-- A refresh whose calls succeed sends the frame of the `vcom` and the `FB` it started with (R117). -/
theorem refreshRule_trace {s : State} (hr : Ready s) (ha : CallsSucceed (refreshTxCount s.cfg + 2) s) :
    (refreshRule s).trace = s.trace ++ refreshFrame s.cfg s.vcom s.fb := by
  obtain ⟨hfault, hcfg, -⟩ := hr
  obtain ⟨b, hb⟩ := nextAnswer_of_succeed ha
  obtain ⟨hi, hpos, hframe, htrace, hrest, -, hcall, hans⟩ := startRefresh_ok hb
  have hc : (startRefresh s).cfg = s.cfg := openTransaction_cfg _ s
  have hf : (startRefresh s).fault = s.fault := (congrArg State.fault hrest :)
  obtain ⟨t, c, hcont, hlast, hend, hrun⟩ := runCalls_toLast (hc ▸ hcfg) hi (hf.trans hfault)
    (by simp [hpos]) (succeed_tail ha hans) (by rw [hcall, hframe, length_refreshFrame]; omega)
  have hbytes : ((refreshFrame s.cfg s.vcom s.fb).drop 1).take (refreshTxCount s.cfg) =
      (refreshBytes s.cfg s.vcom s.fb).map .tx := by
    simp [refreshFrame, ← length_refreshBytes s.cfg s.vcom s.fb]
  calc (refreshRule s).trace = t.trace ++ [.deassertSelect] := by
        rw [refreshRule, hrun, encoderStep_deassert_trace hlast hend]
    _ = s.trace ++ refreshFrame s.cfg s.vcom s.fb := by
        rw [hcont.trace, htrace, hframe, hcall, hbytes]
        simp [refreshFrame]

/-- The data byte of line `y` and place `j` in the frame of a refresh (R117). -/
theorem refreshFrame_data (c : Config) (v : Bit) (m : Memory) {y j : Nat} (hy : y < nativeHeight c)
    (hj : j < bytesPerLine c) :
    (refreshFrame c v m)[2 + y * (bytesPerLine c + 2) + (1 + j)]? =
      some (.tx (readByte m (y * bytesPerLine c + j))) := by
  have hlt : 1 + y * (bytesPerLine c + 2) + (j + 1) < refreshTxCount c := by
    have := Nat.mul_le_mul_right (bytesPerLine c + 2) (Nat.succ_le_of_lt hy)
    rw [Nat.succ_mul] at this
    unfold refreshTxCount
    omega
  have hk : 2 + y * (bytesPerLine c + 2) + (1 + j) = 1 + y * (bytesPerLine c + 2) + (j + 1) + 1 := by omega
  rw [hk, refreshFrame_tx _ _ _ _ hlt, refreshBytes_line _ _ _ hy (by omega), lineBytes_data _ _ _ hj]
  rfl

/-! ## Ownership -/

/-- Settles O41: a refresh runs outside a clear, where no call writes `FB`; the rule of every other command but
CLEAR_DISPLAY keeps `vcom`; and the trace of a refresh is the frame of the buffer at its start. -/
theorem encoderOwnsVcomAndOnlyReadsTheBuffer : Obligations.EncoderOwnsVcomAndOnlyReadsTheBuffer := by
  refine ⟨fun s t h => ?_, fun i s t hi hn h => ?_, fun s hr ha => ?_⟩
  · exact exec_keeps (i := .refresh) State.fb respond_fb raiseFault_fb rfl (refreshRule_fb s) h
  · exact exec_keeps State.vcom respond_vcom raiseFault_vcom hi (commandRule_vcom hn s) h
  · refine ⟨refreshRule s, exec_ready rfl hr, fun y j hy hj => ?_⟩
    have hcalls : CallsSucceed (refreshTxCount s.cfg + 2) s :=
      succeed_mono ha (by unfold refreshTxCount; omega)
    rw [refreshRule_trace hr hcalls, Nat.add_assoc, Nat.add_assoc,
      List.getElem?_append_right (Nat.le_add_right ..), Nat.add_sub_cancel_left, ← Nat.add_assoc]
    exact refreshFrame_data _ _ _ hy hj

end Sys2Proof.Machine
end

