-- ==== Sys2Proof/Proofs/BitAddress.lean ====
section
/-! SUPPORT. The native coordinate that a pair of byte index and bit position addresses (40_framebuffer.md R86). -/

namespace Sys2Proof.Machine

/-! ## From a byte and a bit to the pixel -/

/-- The line of a byte of the buffer is a native line. -/
theorem line_lt_height {c : Config} (hc : configOK c = true) {idx : Nat} (h : idx < bufferBytes c) :
    idx / bytesPerLine c < nativeHeight c := by
  rw [bufferBytes_eq hc, Nat.mul_comm] at h
  exact Nat.div_lt_of_lt_mul h

/-- Bit `k` of byte `j` of a native line is a pixel of that line. -/
theorem column_lt_width {c : Config} (hc : configOK c = true) {j k : Nat} (hj : j < bytesPerLine c) (hk : k < 8) :
    8 * j + k < nativeWidth c := by
  have := width_eq hc
  omega

theorem inRange_of_lt {c : Config} {x y : Nat} (hx : x < nativeWidth c) (hy : y < nativeHeight c) :
    InRange c ((x : Int), (y : Int)) :=
  ⟨⟨Int.natCast_nonneg x, Int.ofNat_lt.2 hx⟩, Int.natCast_nonneg y, Int.ofNat_lt.2 hy⟩

/-- The coordinate with line `idx / BPL` and column `8 * (idx mod BPL) + k` is addressed by `idx`. -/
theorem byteIndexOf_column {c : Config} (hc : configOK c = true) (idx : Nat) {k : Nat} (hk : k < 8) :
    byteIndexOf c ((8 * (idx % bytesPerLine c) + k : Nat), (idx / bytesPerLine c : Nat)) = idx := by
  have hcol : (8 * (idx % bytesPerLine c) + k) / 8 = idx % bytesPerLine c := by omega
  rw [byteIndexOf_line hc, hcol, Nat.div_add_mod']

theorem bitPositionOf_column (j y : Nat) {k : Nat} (hk : k < 8) :
    bitPositionOf ((8 * j + k : Nat), (y : Int)) = k := by
  rw [bitPositionOf_natCast]
  omega

/-! ## The linear bit address -/

/-- A line is a whole number of bytes, so the line does not show in the bit position (R86). -/
theorem linear_mod_eight {c : Config} (hc : configOK c = true) (x y : Nat) :
    (y * nativeWidth c + x) % 8 = x % 8 := by
  rw [width_eq hc, Nat.mul_left_comm, Nat.mul_add_mod]

theorem fbBit_natCast (s : State) (x y : Nat) :
    fbBit s ((x : Int), (y : Int)) =
      BitVec.ofBool ((readByte s.fb ((y * nativeWidth s.cfg + x) / 8)).getLsbD (x % 8)) := by
  rw [fbBit, byteIndexOf_natCast, bitPositionOf_natCast, bitOf]

/-- Settles O20: the address formulas are those of natural coordinates, two coordinates of one address are equal by
`bitAddress_injective`, and the pixel of a pair `(idx, k)` is found by line `idx / BPL` and byte `idx mod BPL` of it. -/
theorem bitAddressIsABijection : Obligations.BitAddressIsABijection := by
  refine fun c hc => ⟨fun x y hx hy => ?_, fun s _ x y _ _ => ?_, fun p q => bitAddress_injective hc,
    fun idx k hidx hk => ⟨_, rfl, ?_, byteIndexOf_column hc idx hk, bitPositionOf_column _ _ hk⟩⟩
  · exact ⟨byteIndexOf_natCast c x y, byteIndexOf_line hc x y, byteIndexOf_lt hc (inRange_of_lt hx hy),
      bitPositionOf_natCast x y, linear_mod_eight hc x y, by rw [bitPositionOf_natCast, bitMask]⟩
  · subst c
    exact fbBit_natCast s x y
  · exact inRange_of_lt (column_lt_width hc (Nat.mod_lt _ (bytesPerLine_pos hc)) hk) (line_lt_height hc hidx)

end Sys2Proof.Machine
end

