-- ==== Sys2Proof/Proofs/Framebuffer.lean ====
section
/-! SUPPORT. The rotation transform and CLEAR_BUFFER (40_framebuffer.md R81 to R84, R92). -/

namespace Sys2Proof.Machine

/-! ## The transform -/

/-- Settles O17: each formula is the branch of `transform` for its rotation, with `W` and `H` written out. -/
theorem transformIsTheFourFormulas : Obligations.TransformIsTheFourFormulas :=
  fun _ _ _ => ⟨rfl, rfl, rfl, rfl⟩

/-! ## The blank buffer -/

section
variable {s : State} (hb : Memory.wf s.fb = true)
include hb

theorem readByte_blankBuffer (a : Nat) :
    readByte (blankBuffer s).fb a = if a < bufferBytes s.cfg then blankByte else readByte s.fb a := by
  rw [blankBuffer_fb, readByte_fillBlank hb]

/-- In a blank buffer "a full scan yields all bits set (value 1) for every pixel" (R92). -/
theorem fbBit_blankBuffer (hc : configOK s.cfg = true) {q : Int × Int} (hq : InRange s.cfg q) :
    fbBit (blankBuffer s) q = 1#1 := by
  rw [fbBit, blankBuffer_cfg, readByte_blankBuffer hb, if_pos (byteIndexOf_lt hc hq),
    bitOf_blankByte (bitPositionOf_lt q)]

end

/-- Settles O26: the command is its rule, whose state is the blank buffer with `Done`; the bytes are those of the fill,
and the byte of an in-range pixel is one of them. -/
theorem clearBufferBlanksTheBuffer : Obligations.ClearBufferBlanksTheBuffer := by
  intro s hr hb
  have ⟨_, hc, _⟩ := hr
  exact ⟨clearBufferRule s, exec_ready rfl hr, readByte_blankBuffer hb, fun _ => fbBit_blankBuffer hb hc,
    rfl, rfl⟩

end Sys2Proof.Machine
end

