-- ==== Sys2Proof/Proofs/ProtocolEncoder.lean ====
section
/-! SUPPORT. What a clear sends, and what the frame of a refresh depends on (41_protocol_encoder.md R107). -/

namespace Sys2Proof.Machine

/-! ## What a clear sends -/

/-- A clear whose calls succeed sends the frame of the `vcom` it started with (R108). -/
theorem clearDisplayRule_trace {s : State} (hr : Ready s) (ha : CallsSucceed 4 s) :
    (clearDisplayRule s).trace = s.trace ++ clearFrame s.vcom := by
  obtain ⟨hfault, hcfg, -⟩ := hr
  obtain ⟨b, hb⟩ := nextAnswer_of_succeed ha
  obtain ⟨hi, hpos, hframe, htrace, hrest, -, hcall, hans⟩ := startClear_ok hb
  have hc : (startClear s).cfg = s.cfg := openTransaction_cfg _ s
  have hf : (startClear s).fault = s.fault := (congrArg State.fault hrest :)
  obtain ⟨t, c, hcont, hlast, hend, hrun⟩ := runCalls_toLast (hc ▸ hcfg) hi (hf.trans hfault)
    (by simp [hpos]) (succeed_tail ha hans) (by rw [hcall, hframe]; rfl)
  calc (clearDisplayRule s).trace = t.trace ++ [.deassertSelect] := by
        rw [clearDisplayRule, hrun, encoderStep_deassert_trace hlast hend]
    _ = s.trace ++ clearFrame s.vcom := by
        rw [hcont.trace, htrace, hframe, hcall]
        simp [clearFrame]

/-! ## What the frame of a refresh depends on -/

section
variable {c c' : Config}

theorem bytesPerLine_congr (hw : c.width = c'.width) : bytesPerLine c = bytesPerLine c' := by
  rw [bytesPerLine, nativeWidth, hw, bytesPerLine, nativeWidth]

theorem nativeHeight_congr (hh : c.height = c'.height) : nativeHeight c = nativeHeight c' := by
  rw [nativeHeight, hh, nativeHeight]

/-- A line is sent alike from two buffers that agree on its bytes. -/
theorem lineBytes_congr {m m' : Memory} {y : Nat} (hb : bytesPerLine c = bytesPerLine c')
    (hm : ∀ j, j < bytesPerLine c → readByte m (y * bytesPerLine c + j) = readByte m' (y * bytesPerLine c + j)) :
    lineBytes c m y = lineBytes c' m' y := by
  have hdata : (List.range (bytesPerLine c)).map (fun j => readByte m (y * bytesPerLine c + j)) =
      (List.range (bytesPerLine c)).map (fun j => readByte m' (y * bytesPerLine c + j)) :=
    List.map_congr_left fun j hj => hm j (List.mem_range.1 hj)
  rw [lineBytes, hdata, hb, lineBytes]

/-- The frame of a refresh is fixed by the polarity, `W`, `H` and the bytes 0 to N-1 of the buffer: every byte of a line
is one of those. -/
theorem refreshFrame_congr {m m' : Memory} (hc : configOK c = true) (hw : c.width = c'.width)
    (hh : c.height = c'.height) (hm : ∀ a, a < bufferBytes c → readByte m a = readByte m' a) (v : Bit) :
    refreshFrame c v m = refreshFrame c' v m' := by
  have hlines : (List.range (nativeHeight c)).flatMap (lineBytes c m) =
      (List.range (nativeHeight c)).flatMap (lineBytes c' m') :=
    List.flatMap_congr fun y hy => lineBytes_congr (bytesPerLine_congr hw) fun j hj =>
      hm _ (lineIndex_lt hc (List.mem_range.1 hy) hj)
  rw [refreshFrame, refreshBytes, hlines, nativeHeight_congr hh, refreshFrame, refreshBytes]

end

/-! ## Purity -/

/-- Settles O39: with a transport that never fails a clear appends the frame of its `vcom`, and a refresh the frame of
its `vcom`, size and buffer, which is the same for blocks that agree on these. -/
theorem encoderIsAPureFunction : Obligations.EncoderIsAPureFunction := by
  refine ⟨fun s s' hr hr' ha ha' hv => ?_, fun s s' hr hr' ha ha' hv hw hh hm => ?_⟩
  · exact ⟨_, _, clearFrame s.vcom, exec_ready rfl hr, exec_ready rfl hr', clearDisplayRule_trace hr ha,
      hv ▸ clearDisplayRule_trace hr' ha'⟩
  · have ⟨_, hc, _⟩ := hr
    have hcount : refreshTxCount s.cfg + 2 = 4 + nativeHeight s.cfg * (bytesPerLine s.cfg + 2) := by
      unfold refreshTxCount
      omega
    have hcount' : refreshTxCount s'.cfg = refreshTxCount s.cfg := by
      rw [refreshTxCount, ← nativeHeight_congr hh, ← bytesPerLine_congr hw, refreshTxCount]
    have hframe : refreshFrame s.cfg s.vcom s.fb = refreshFrame s'.cfg s'.vcom s'.fb := by
      rw [refreshFrame_congr hc hw hh hm, hv]
    refine ⟨_, _, refreshFrame s.cfg s.vcom s.fb, exec_ready rfl hr, exec_ready rfl hr', ?_, ?_⟩
    · exact refreshRule_trace hr (hcount ▸ ha)
    · rw [hframe]
      exact refreshRule_trace hr' (by rw [hcount', hcount]; exact ha')

end Sys2Proof.Machine
end

/-! SUPPORT. What a word, a quiet step and a whole step can do, once, and from that what every step keeps. -/

namespace Sys2Proof.Machine

/-! ## A word -/

/-- The rule of a command taken call by call: of the two that make a transaction the call k = 0, else `commandRule`
(R122). -/
def byCallsRule : Instr → State → State
  | .clearDisplay => startClear
  | .refresh => startRefresh
  | i => commandRule i

/-- Everything a word `w` can do to `s` whose command, once the dispatch checks have passed, does `rule` (R130). -/
inductive WordOutcome (rule : Instr → State → State) (w : CmdWord) (s : State) : State → Prop where
  | sticky : s.fault ≠ .noFault → WordOutcome rule w s (respondSticky s)
  | illegal (e : DecodeError) : s.fault = .noFault → decodeCommand w = .error e →
      WordOutcome rule w s (raiseFault (.illegalCommand w) s)
  | overlap (i : Instr) : s.fault = .noFault → configOK s.cfg = true → s.sel = .asserted → decodeCommand w = .ok i →
      WordOutcome rule w s (raiseFault (.txnOverlap (commandOp i)) s)
  | execute (i : Instr) : Ready s → decodeCommand w = .ok i → WordOutcome rule w s (rule i s)

theorem byCallsRule_eq {i : Instr} (h : startsTransaction i = false) : byCallsRule i = commandRule i := by
  cases i <;> first | rfl | cases h

theorem eq_of_startsTransaction {i : Instr} (h : startsTransaction i = true) : i = .clearDisplay ∨ i = .refresh := by
  cases i <;> simp_all [startsTransaction]

theorem execByCalls_eq {i : Instr} (hi : i.isCommand = true) (s : State) :
    execByCalls i s = dispatch (commandOp i) (byCallsRule i) s := by
  cases i <;> first | rfl | cases hi

theorem illegalWord_first {s : State} (h : s.fault = .noFault) (w : CmdWord) :
    illegalWord w s = raiseFault (.illegalCommand w) s := by
  simp [illegalWord, h]

/-- A dispatched command is one of the outcomes of its word. -/
theorem wordOutcome_of_dispatch {rule : Instr → State → State} {w : CmdWord} {i : Instr} {s t : State}
    (hd : decodeCommand w = .ok i) (h : dispatch (commandOp i) (rule i) s = .next t) : WordOutcome rule w s t := by
  rcases dispatch_cases h with ⟨hf, rfl⟩ | ⟨hf, hc, hs, rfl⟩ | ⟨hr, rfl⟩
  · exact .sticky hf
  · exact .overlap i hf hc hs hd
  · exact .execute i hr hd

theorem wordOutcome_of_error {rule : Instr → State → State} {w : CmdWord} {e : DecodeError} (s : State)
    (hd : decodeCommand w = .error e) : WordOutcome rule w s (illegalWord w s) := by
  by_cases hf : s.fault = .noFault
  · rw [illegalWord_first hf]
    exact .illegal e hf hd
  · rw [illegalWord, if_pos hf]
    exact .sticky hf

theorem present_cases {w : CmdWord} {s t : State} (h : present w s = .next t) : WordOutcome commandRule w s t := by
  cases hd : decodeCommand w with
  | error e =>
    rw [present_error hd] at h
    cases h
    exact wordOutcome_of_error s hd
  | ok i =>
    rw [present_ok hd, exec_dispatch (decodeCommand_ok hd).1] at h
    exact wordOutcome_of_dispatch hd h

theorem presentByCalls_cases {w : CmdWord} {s t : State} (h : presentByCalls w s = .next t) :
    WordOutcome byCallsRule w s t := by
  cases hd : decodeCommand w with
  | error e =>
    rw [presentByCalls_error hd] at h
    cases h
    exact wordOutcome_of_error s hd
  | ok i =>
    rw [presentByCalls_ok hd, execByCalls_eq (decodeCommand_ok hd).1] at h
    exact wordOutcome_of_dispatch hd h

/-- Where no command can be executed a word leaves a fault: the one it meets, or the one it raises. -/
theorem WordOutcome.faulted {rule : Instr → State → State} {w : CmdWord} {s t : State} (ho : WordOutcome rule w s t)
    (hn : ¬ Ready s) : t.fault ≠ .noFault := by
  cases ho with
  | sticky hf => exact hf
  | illegal e hf hd => exact stickyFault_ne _ (by simp)
  | overlap i hf hc hs hd => exact stickyFault_ne _ (by simp)
  | execute i hr hd => exact absurd hr hn

/-- Two words at once answer a next state only where the first meets or raises a fault, which the second is answered
by (R164). -/
theorem presentTogether_cases {w₁ w₂ : CmdWord} {s t : State} (h : presentTogether w₁ w₂ s = .next t) :
    ∃ u, WordOutcome commandRule w₁ s u ∧ ¬ Ready s ∧ t = respondSticky u := by
  unfold presentTogether at h
  split at h
  · cases h
  · next hn =>
    have hn : ¬ Ready s := fun hr => hn ⟨hr.1, hr.2.2⟩
    split at h
    · next u hu =>
      have ho := present_cases hu
      rw [(present_sticky (ho.faulted hn) w₂).1] at h
      cases h
      exact ⟨u, ho, hn, rfl⟩
    · cases h
    · cases h

/-! ## A quiet step -/

/-- A wire item carries out the encoder's next call, where it stands in its place (log 9). -/
theorem exec_wire {i : Instr} (hi : i.isCommand = false) :
    ∃ b, encode i = .wire b ∧ ∀ s, exec i s = sendItem i b s := by
  cases i <;> first | exact ⟨_, rfl, fun _ => rfl⟩ | cases hi

theorem wireItemAt_isCommand {s : State} {i : Instr} (h : wireItemAt s = some i) : i.isCommand = false := by
  have henc := (wireItemAt_encode h).2
  cases i <;> first | rfl | cases henc

/-- The wire item at the encoder's position is its next call (R122). -/
theorem exec_wireItemAt {s : State} {i : Instr} (hm : MidTransaction s) (h : wireItemAt s = some i) :
    exec i s = .next (encoderStep s) := by
  obtain ⟨b, hb, hexec⟩ := exec_wire (wireItemAt_isCommand h)
  obtain ⟨htx, henc⟩ := wireItemAt_encode h
  have hbyte : b = nextByte s := Encoded.wire.inj (hb.symm.trans henc)
  rw [hexec, sendItem_ok hm h, encoderStep_eq_sendTx htx, hbyte]

/-- A wire item that answers a next state stands at the encoder's position. -/
theorem exec_wire_next {s t : State} {i : Instr} (hi : i.isCommand = false) (h : exec i s = .next t) :
    MidTransaction s ∧ wireItemAt s = some i ∧ t = encoderStep s := by
  obtain ⟨b, -, hexec⟩ := exec_wire hi
  rw [hexec] at h
  obtain ⟨hm, hw, -⟩ := sendItem_next h
  have hnext := exec_wireItemAt hm hw
  rw [hexec, h] at hnext
  cases hnext
  exact ⟨hm, hw, rfl⟩

/-- Where no wire item is next, the next call is the deassert, or there is none, or `FB` lacks the byte. -/
theorem wireItemAt_none {s : State} (h : wireItemAt s = none) :
    txPos s.pos = false ∨ (s.pos = .data ∧ bufferBytes s.cfg ≤ s.byteIndex) := by
  unfold wireItemAt at h
  cases hp : s.pos <;> rw [hp] at h <;> simp_all [txPos]

/-- A quiet step of a transaction that goes on: its next call, unless the buffer lacks the byte (R122; log 15). -/
theorem quietStep_mid {s : State} (hm : MidTransaction s) : quietStep s =
    if s.pos = .data ∧ bufferBytes s.cfg ≤ s.byteIndex then .fault .noSuchByte else .next (encoderStep s) := by
  have hrun : quietStep s = _ := if_pos (transactionRuns_of hm)
  cases hw : wireItemAt s with
  | some i =>
    have hdata : ¬ (s.pos = .data ∧ bufferBytes s.cfg ≤ s.byteIndex) := by
      rintro ⟨hp, hle⟩
      simp [wireItemAt, hp, Nat.not_lt.2 hle] at hw
    rw [hw] at hrun
    rw [if_neg hdata, hrun]
    exact exec_wireItemAt hm hw
  | none =>
    simp only [hw] at hrun
    rcases wireItemAt_none hw with htx | ⟨hp, hle⟩
    · have hdata : ¬ (s.pos = .data ∧ bufferBytes s.cfg ≤ s.byteIndex) := by
        rintro ⟨hp, -⟩
        rw [hp] at htx
        cases htx
      rw [if_neg hdata, hrun]
      cases hp : s.pos <;> rw [hp] at htx <;> first | (cases htx; done) | simp [encoderStep, hp]
    · rw [if_pos ⟨hp, hle⟩, hrun, hp]

/-- Everything a quiet step can do when it answers a next state: the next call of a transaction that goes on, the free
calls after an overlap, nothing. -/
theorem quietStep_cases {s t : State} (h : quietStep s = .next t) :
    (MidTransaction s ∧ t = encoderStep s) ∨ (interrupted s = true ∧ t = unspecifiedCalls s) ∨ t = s := by
  by_cases hm : MidTransaction s
  · rw [quietStep_mid hm] at h
    split at h <;> cases h
    exact .inl ⟨hm, rfl⟩
  · by_cases hi : interrupted s = true
    · rw [quietStep_interrupted hi] at h
      cases h
      exact .inr (.inl ⟨hi, rfl⟩)
    · rw [quietStep_idle hm (by simpa using hi)] at h
      cases h
      exact .inr (.inr rfl)

/-- Nothing arrives at the next step, and `rest` is the schedule after it. -/
theorem step_of_quiet {s : State} {rest : List HostEvent}
    (h : s.schedule = .quiet :: rest ∨ (s.schedule = [] ∧ rest = [])) :
    step s = quietStep { s with schedule := rest } := by
  rcases h with h | ⟨h, rfl⟩
  · exact step_quiet h
  · rw [step_nil h, schedule_eta h]

/-! ## What every step keeps -/

/-- `P` is kept by every update a step other than RESET is made of. -/
structure Kept (P : State → Prop) : Prop where
  schedule : ∀ {s} rest, P s → P { s with schedule := rest }
  respond : ∀ {s} r, P s → P (respond r s)
  raise : ∀ {s} f, f ≠ .noFault → s.fault = .noFault → P s → P (raiseFault f s)
  call : ∀ {s}, P s → P (encoderStep s)
  free : ∀ {s}, interrupted s = true → P s → P (unspecifiedCalls s)
  rule : ∀ {s} i, startsTransaction i = false → Ready s → P s → P (commandRule i s)
  start : ∀ {s} p, p = .clearCommand ∨ p = .refreshCommand → Ready s → P s → P (openTransaction p s)

namespace Kept
variable {P : State → Prop}

theorem runCalls (k : Kept P) (n : Nat) {s : State} (h : P s) : P (runCalls n s) := by
  induction n generalizing s with
  | zero => exact h
  | succ n ih =>
    by_cases hf : s.fault = .noFault
    · rw [runCalls_succ hf]
      exact ih (k.call h)
    · rwa [runCalls_faulted hf]

theorem commandRule (k : Kept P) (i : Instr) {s : State} (hr : Ready s) (h : P s) : P (commandRule i s) := by
  cases hi : startsTransaction i with
  | false => exact k.rule i hi hr h
  | true =>
    rcases eq_of_startsTransaction hi with rfl | rfl
    · exact k.runCalls _ (k.start _ (.inl rfl) hr h)
    · exact k.runCalls _ (k.start _ (.inr rfl) hr h)

theorem byCallsRule (k : Kept P) (i : Instr) {s : State} (hr : Ready s) (h : P s) : P (byCallsRule i s) := by
  cases hi : startsTransaction i with
  | false =>
    rw [byCallsRule_eq hi]
    exact k.rule i hi hr h
  | true =>
    rcases eq_of_startsTransaction hi with rfl | rfl
    · exact k.start _ (.inl rfl) hr h
    · exact k.start _ (.inr rfl) hr h

theorem word (k : Kept P) {rule : Instr → State → State} {w : CmdWord} {s t : State} (h : P s)
    (hrule : ∀ i, Ready s → P (rule i s)) (ho : WordOutcome rule w s t) : P t := by
  cases ho with
  | sticky hf => exact k.respond _ h
  | illegal e hf hd => exact k.raise _ (by simp) hf h
  | overlap i hf hc hs hd => exact k.raise _ (by simp) hf h
  | execute i hr hd => exact hrule i hr

theorem quietStep (k : Kept P) {s t : State} (h : P s) (hq : quietStep s = .next t) : P t := by
  rcases quietStep_cases hq with ⟨-, rfl⟩ | ⟨hi, rfl⟩ | rfl
  · exact k.call h
  · exact k.free hi h
  · exact h

/-- What every update keeps, a step keeps, if RESET does where it arrives. -/
theorem step (k : Kept P) {s t : State} (h : P s)
    (hreset : ∀ rot bytes rest, s.schedule = .reset rot bytes :: rest →
      P (takeReset rot bytes { s with schedule := rest }))
    (hstep : step s = .next t) : P t := by
  cases hs : s.schedule with
  | nil =>
    rw [step_nil hs] at hstep
    exact k.quietStep h hstep
  | cons e rest =>
    have h' : P { s with schedule := rest } := k.schedule rest h
    cases e with
    | quiet =>
      rw [step_quiet hs] at hstep
      exact k.quietStep h' hstep
    | command w =>
      rw [step_command hs] at hstep
      exact k.word h' (fun i hr => k.commandRule i hr h') (present_cases hstep)
    | commandByCalls w =>
      rw [step_commandByCalls hs] at hstep
      exact k.word h' (fun i hr => k.byCallsRule i hr h') (presentByCalls_cases hstep)
    | together w₁ w₂ =>
      rw [step_together hs] at hstep
      obtain ⟨u, hu, -, rfl⟩ := presentTogether_cases hstep
      exact k.respond _ (k.word h' (fun i hr => k.commandRule i hr h') hu)
    | reset rot bytes =>
      rw [step_reset hs] at hstep
      cases hstep
      exact hreset rot bytes rest hs

end Kept

end Sys2Proof.Machine

/-! SUPPORT. The invariants of 10_state.md section 9: every update of the state keeps them, so every step does. -/

namespace Sys2Proof.Machine

/-! ## Commands that make no transaction -/

/-- A command other than CLEAR_DISPLAY and REFRESH writes the buffer, `rot` and the responses at most. -/
theorem commandRule_shape {i : Instr} (h : startsTransaction i = false) (s : State) :
    { commandRule i s with fb := s.fb, rot := s.rot, responses := s.responses } = s := by
  cases i
  case clearDisplay => cases h
  case refresh => cases h
  case setPixel v x y =>
    by_cases hp : InRange s.cfg (nativeOf s.cfg s.rot x y)
    · simp only [commandRule, setPixelRule_of_inRange v hp]; rfl
    · simp only [commandRule, setPixelRule_of_not v hp]; rfl
  all_goals rfl

/-- The buffer in its canonical form, with no byte outside the `n` bytes of `FB`. -/
def BufferWithin (n : Nat) (m : Memory) : Prop := Memory.wf m = true ∧ ∀ cell ∈ m, cell.1 < n

theorem bufferWithin_writeByte {n a : Nat} {m : Memory} (h : BufferWithin n m) (ha : a < n) (v : Byte) :
    BufferWithin n (writeByte m a v) := by
  refine ⟨wf_writeByte h.1 a v, fun cell hcell => ?_⟩
  rcases mem_writeByte hcell with rfl | hm
  · exact ha
  · exact h.2 cell hm

theorem bufferWithin_fillBlank {n : Nat} {m : Memory} (h : BufferWithin n m) : BufferWithin n (fillBlank n m) :=
  ⟨wf_fillBlank h.1 n, fun cell hcell => (mem_fillBlank hcell).elim id (h.2 cell)⟩

theorem bufferWithin_loadBytes (n : Nat) (bytes : List Byte) : BufferWithin n (loadBytes n bytes 0 []) := by
  refine ⟨wf_loadBytes rfl n bytes 0, fun cell hcell => ?_⟩
  rcases mem_loadBytes hcell with hlt | hm
  · omega
  · cases hm

theorem commandRule_buffer {i : Instr} (h : startsTransaction i = false) {s : State} (hr : Ready s)
    (hb : BufferWithin (bufferBytes s.cfg) s.fb) : BufferWithin (bufferBytes s.cfg) (commandRule i s).fb := by
  obtain ⟨-, hc, -⟩ := hr
  cases i
  case clearDisplay => cases h
  case refresh => cases h
  case init r => exact bufferWithin_fillBlank hb
  case clearBuffer => exact bufferWithin_fillBlank hb
  case setPixel v x y =>
    by_cases hp : InRange s.cfg (nativeOf s.cfg s.rot x y)
    · simp only [commandRule, setPixelRule_of_inRange v hp]
      exact bufferWithin_writeByte hb (byteIndexOf_lt hc hp) _
    · simp only [commandRule, setPixelRule_of_not v hp]
      exact hb
  all_goals exact hb

/-! ## The state invariant -/

/-- The encoder's invariant reads the position, `sel`, the loop variables and the parameters; of the fault register
only that a fault stays. -/
theorem encoderInv_of_eq {s t : State} (hpos : t.pos = s.pos) (hsel : t.sel = s.sel) (hcfg : t.cfg = s.cfg)
    (hbyte : t.byteIndex = s.byteIndex) (hline : t.prevLine = s.prevLine) (hcall : t.callPos = s.callPos)
    (hfault : s.fault ≠ .noFault → t.fault ≠ .noFault) (h : EncoderInv s) : EncoderInv t := by
  unfold EncoderInv at *
  rw [hpos, hsel, hcfg, hbyte, hline, hcall]
  cases hp : s.pos <;> rw [hp] at h
  case stopped => exact hfault h
  all_goals exact h

theorem encoderInv_stopped {s : State} (hp : s.pos = .stopped) (hf : s.fault ≠ .noFault) : EncoderInv s := by
  rw [EncoderInv, hp]
  exact hf

/-- A position with a call next is inside a transaction. -/
theorem sel_of_hasCall {s : State} (hi : EncoderInv s) (hp : HasCall s.pos) : s.sel = .asserted := by
  unfold EncoderInv at hi
  cases hpos : s.pos <;> rw [hpos] at hi hp
  case idle => exact absurd rfl hp.1
  case stopped => exact absurd rfl hp.2
  all_goals exact hi.1

/-- Every position with a call next is that of a `Tx` call or of the deassert. -/
theorem txPos_or_deassert {p : EncoderPos} (h : HasCall p) :
    txPos p = true ∨ p = .clearDeassert ∨ p = .refreshDeassert := by
  obtain ⟨h₁, h₂⟩ := h
  cases p <;> simp_all [txPos]

/-- What a deassert that succeeds leaves, at the end of either transaction (R103, R108, R116). -/
theorem encoderStep_deassert {s : State} {b : Byte} (hb : nextAnswer s = .ok b)
    (hp : s.pos = .clearDeassert ∨ s.pos = .refreshDeassert) :
    ∃ m, encoderStep s = { s with
      fb := m, sel := .deasserted, pos := .idle, callPos := s.callPos + 1, busLog := .deassertSelect :: s.busLog
      responses := s.responses ++ [.done], answers := s.answers.tail, draws := s.draws + 1 } ∧
      m = if s.pos = .clearDeassert ∧ s.cfg.clearDisplayClearsBuffer = true then fillBlank (bufferBytes s.cfg) s.fb
        else s.fb := by
  refine ⟨_, ?_, rfl⟩
  rcases hp with hp | hp
  · rw [encoderStep_clearDeassert hp, endClear, closeTransaction_ok hb]
    cases hf : s.cfg.clearDisplayClearsBuffer <;> simp [hp, hf, respond, recordCall, useAnswer, blankBuffer]
  · rw [encoderStep_refreshDeassert hp, endRefresh, closeTransaction_ok hb]
    simp [hp, respond, recordCall, useAnswer]

theorem encoderStep_encoderInv {s : State} (hc : s.sel = .asserted → configOK s.cfg = true) (hi : EncoderInv s) :
    EncoderInv (encoderStep s) := by
  by_cases hp : HasCall s.pos
  · rcases nextAnswer_cases s with ⟨b, hb⟩ | hf
    · rcases txPos_or_deassert hp with ht | hd
      · rw [encoderStep_sent hb ht]
        exact (afterTx_keeps (hc (sel_of_hasCall hi hp)) hi ht).1
      · obtain ⟨m, hs, -⟩ := encoderStep_deassert hb hd
        rw [hs]
        rfl
    · rw [encoderStep_failed hf hp]
      exact encoderInv_stopped rfl (failCall_faulted s)
  · rwa [encoderStep_none hp]

/-- No call asserts the select but the first of a transaction. -/
theorem encoderStep_sel {s : State} (h : (encoderStep s).sel = .asserted) : s.sel = .asserted := by
  by_cases hp : HasCall s.pos
  · rcases nextAnswer_cases s with ⟨b, hb⟩ | hf
    · rcases txPos_or_deassert hp with ht | hd
      · rw [encoderStep_sent hb ht] at h
        simpa using h
      · obtain ⟨m, hs, -⟩ := encoderStep_deassert hb hd
        rw [hs] at h
        cases h
    · rwa [encoderStep_failed hf hp] at h
  · rwa [encoderStep_none hp] at h

theorem encoderStep_recorded {s : State} (h : s.fault ≠ .noFault) : (encoderStep s).fault ≠ .noFault := by
  rcases encoderStep_fault s with hf | ⟨hf, -⟩
  · rwa [hf]
  · exact absurd hf h

theorem interrupted_fault {s : State} (h : interrupted s = true) : s.fault ≠ .noFault := by
  intro hf
  simp [interrupted, hf] at h

theorem inv_encoderStep {s : State} (h : Inv s) : Inv (encoderStep s) := by
  obtain ⟨hcfg, -, -, hfb⟩ := encoderStep_shape s
  refine ⟨?_, fun hc => ?_, encoderStep_encoderInv h.active h.encoder, fun hs => ?_⟩
  · rw [BufferInv, hcfg]
    rcases hfb with hfb | hfb <;> rw [hfb]
    · exact h.buffer
    · exact bufferWithin_fillBlank h.buffer
  · rw [hcfg] at hc
    exact encoderStep_recorded (h.config hc)
  · rw [hcfg]
    exact h.active (encoderStep_sel hs)

theorem inv_openTransaction {s : State} {p : EncoderPos} (hp : p = .clearCommand ∨ p = .refreshCommand)
    (hr : Ready s) (h : Inv s) : Inv (openTransaction p s) := by
  obtain ⟨-, hc, hs⟩ := hr
  rcases nextAnswer_cases s with ⟨b, hb⟩ | hf
  · rw [openTransaction_ok hb]
    refine ⟨h.buffer, h.config, ?_, fun _ => hc⟩
    rcases hp with rfl | rfl <;> exact ⟨rfl, rfl⟩
  · rw [openTransaction_failed hf]
    exact ⟨h.buffer, fun hc' => absurd hc (by simpa using hc'), encoderInv_stopped rfl (failCall_faulted _), h.active⟩

theorem inv_commandRule {s : State} {i : Instr} (hi : startsTransaction i = false) (hr : Ready s) (h : Inv s) :
    Inv (commandRule i s) := by
  have hs := commandRule_shape hi s
  have hcfg : (commandRule i s).cfg = s.cfg := (congrArg State.cfg hs :)
  have hfault : (commandRule i s).fault = s.fault := (congrArg State.fault hs :)
  have hsel : (commandRule i s).sel = s.sel := (congrArg State.sel hs :)
  refine ⟨?_, ?_, ?_, ?_⟩
  · rw [BufferInv, hcfg]
    exact commandRule_buffer hi hr h.buffer
  · rw [ConfigInv, hcfg, hfault]
    exact h.config
  · exact encoderInv_of_eq (congrArg State.pos hs :) hsel hcfg (congrArg State.byteIndex hs :)
      (congrArg State.prevLine hs :) (congrArg State.callPos hs :) (by rw [hfault]; exact id) h.encoder
  · rw [hcfg, hsel]
    exact h.active

theorem inv_takeReset (rot : Rotation) (bytes : List Byte) (s : State) : Inv (takeReset rot bytes s) := by
  refine ⟨bufferWithin_loadBytes _ bytes, fun hc => ?_, rfl, fun hs => by cases hs⟩
  have hc : configOK s.cfg = false := hc
  simp [takeReset, State.afterReset, hc]

theorem kept_inv : Kept Inv where
  schedule _ h := ⟨h.buffer, h.config, h.encoder, h.active⟩
  respond _ h := ⟨h.buffer, h.config, h.encoder, h.active⟩
  raise {s} _ hf _ h := ⟨h.buffer, fun _ => stickyFault_ne _ hf,
    encoderInv_of_eq (s := s) rfl rfl rfl rfl rfl rfl (fun _ => stickyFault_ne _ hf) h.encoder, h.active⟩
  call := inv_encoderStep
  free _ h := ⟨h.buffer, h.config, h.encoder, h.active⟩
  rule _ hi hr h := inv_commandRule hi hr h
  start _ hp hr h := inv_openTransaction hp hr h

/-- Settles O3: every update a step is made of keeps the invariant, and RESET leaves it. -/
theorem stepKeepsTheStateInvariant : Obligations.StepKeepsTheStateInvariant :=
  fun _ _ h hstep => kept_inv.step h (fun rot bytes _ _ => inv_takeReset rot bytes _) hstep

/-! ## The polarity parity -/

theorem flipPolarity_flipPolarity (v : Bit) : flipPolarity (flipPolarity v) = v := by
  revert v; decide

/-- The parity, with the flip of the transaction in progress taken back: the polarity of the current frame counts the
transactions completed. -/
theorem polarityInv_iff {s : State} : PolarityInv s ↔
    (s.fault = .noFault → frameVcom s = s.cfg.vcomReset ^^^ BitVec.ofNat 1 (completed s)) := by
  have hx : ∀ v a b : Bit, v = a ^^^ b ^^^ 1#1 ↔ flipPolarity v = a ^^^ b := by decide
  unfold PolarityInv frameVcom
  cases flippedAt s.pos <;> simp [hx]

theorem completed_of_trace {s t : State} {e : BusEvent} (h : t.trace = s.trace ++ [e]) :
    completed t = completed s + if e = .deassertSelect then 1 else 0 := by
  rw [completed, completed, h, List.count_append, List.count_singleton]
  simp

/-- A call answered in an unfaulted block leaves it unfaulted if it succeeded, or if there was none. -/
theorem encoderStep_noFault {s : State} (h : (encoderStep s).fault = .noFault) :
    s.fault = .noFault ∧ (HasCall s.pos → ∃ b, nextAnswer s = .ok b) := by
  refine ⟨?_, fun hp => ?_⟩
  · by_contra hf
    exact encoderStep_recorded hf h
  · rcases nextAnswer_cases s with hb | hf
    · exact hb
    · rw [encoderStep_failed hf hp] at h
      exact absurd h (failCall_faulted s)

/-- At the deassert the polarity has been flipped. -/
theorem frameVcom_deassert {s : State} (hp : s.pos = .clearDeassert ∨ s.pos = .refreshDeassert) :
    frameVcom s = flipPolarity s.vcom := by
  rcases hp with hp | hp <;> rw [frameVcom, hp] <;> rfl

/-- One more transaction is one more flip. -/
theorem parity_succ {v a : Bit} {n : Nat} (h : flipPolarity v = a ^^^ BitVec.ofNat 1 n) :
    v = a ^^^ BitVec.ofNat 1 (n + 1) := by
  have hbit : ∀ v a k : Bit, flipPolarity v = a ^^^ k → v = a ^^^ (k + 1#1) := by decide
  rw [BitVec.ofNat_add]
  exact hbit _ _ _ h

theorem polarity_encoderStep {s : State} (hi : Inv s) (h : PolarityInv s) : PolarityInv (encoderStep s) := by
  rw [polarityInv_iff] at *
  intro hf
  obtain ⟨hf, hans⟩ := encoderStep_noFault hf
  have hpar := h hf
  by_cases hp : HasCall s.pos
  · obtain ⟨b, hb⟩ := hans hp
    rcases txPos_or_deassert hp with ht | hd
    · have hcont := encoderStep_continues (hi.active (sel_of_hasCall hi.encoder hp)) hi.encoder hb ht
      have htr : (encoderStep s).trace = s.trace ++ [.tx (nextByte s)] := by
        rw [encoderStep_sent hb ht]; simp
      rw [hcont.vcom, hcont.cfg, completed_of_trace htr, hpar]
      rfl
    · have htr := encoderStep_deassert_trace hb hd
      obtain ⟨m, hs, -⟩ := encoderStep_deassert hb hd
      have hv : frameVcom (encoderStep s) = s.vcom := by rw [hs]; rfl
      have hcfg : (encoderStep s).cfg = s.cfg := by rw [hs]
      rw [frameVcom_deassert hd] at hpar
      rw [hv, hcfg, completed_of_trace htr]
      exact parity_succ hpar
  · rw [encoderStep_none hp]
    exact hpar

theorem polarity_openTransaction {s : State} {p : EncoderPos} (hp : p = .clearCommand ∨ p = .refreshCommand)
    (hr : Ready s) (hi : EncoderInv s) (h : PolarityInv s) : PolarityInv (openTransaction p s) := by
  rw [polarityInv_iff] at *
  intro hf
  rcases nextAnswer_cases s with ⟨b, hb⟩ | hfail
  · have hpar := h hr.1
    rw [frameVcom, idle_of_ready hi hr] at hpar
    have htr : (openTransaction p s).trace = s.trace ++ [.assertSelect] := by
      rw [openTransaction_ok hb]; simp [State.trace]
    have hv : frameVcom (openTransaction p s) = s.vcom := by
      rw [openTransaction_ok hb]
      rcases hp with rfl | rfl <;> rfl
    rw [hv, openTransaction_cfg, completed_of_trace htr]
    exact hpar
  · rw [openTransaction_failed hfail] at hf
    exact absurd hf (failCall_faulted _)

theorem polarity_commandRule {s : State} {i : Instr} (hi : startsTransaction i = false) (h : PolarityInv s) :
    PolarityInv (commandRule i s) := by
  rw [← commandRule_shape hi s] at h
  exact h

/-- The state invariant with the parity: what every step keeps together (R32). -/
theorem kept_polarity : Kept fun s => Inv s ∧ PolarityInv s where
  schedule rest h := ⟨kept_inv.schedule rest h.1, h.2⟩
  respond r h := ⟨kept_inv.respond r h.1, h.2⟩
  raise f hf hs h := ⟨kept_inv.raise f hf hs h.1, fun hn => absurd hn (stickyFault_ne _ hf)⟩
  call h := ⟨kept_inv.call h.1, polarity_encoderStep h.1 h.2⟩
  free hi h := ⟨kept_inv.free hi h.1, fun hn => absurd hn (interrupted_fault hi)⟩
  rule i hi hr h := ⟨kept_inv.rule i hi hr h.1, polarity_commandRule hi h.2⟩
  start p hp hr h := ⟨kept_inv.start p hp hr h.1, polarity_openTransaction hp hr h.1.encoder h.2⟩

theorem polarity_takeReset (rot : Rotation) (bytes : List Byte) (s : State) : PolarityInv (takeReset rot bytes s) := by
  intro _
  simp [takeReset, State.afterReset, completed, State.trace, flippedAt]

/-- Settles O4: each completed transaction has flipped `vcom` once, at the place its frame says, and no other update
touches `vcom`. -/
theorem stepKeepsThePolarityParity : Obligations.StepKeepsThePolarityParity :=
  fun _ _ hi h hstep => (kept_polarity.step ⟨hi, h⟩
    (fun rot bytes _ _ => ⟨inv_takeReset rot bytes _, polarity_takeReset rot bytes _⟩) hstep).2

/-! ## The form of the trace -/

theorem wholeTransactions_nil (c : Config) : WholeTransactions c [] := ⟨[], rfl, by simp⟩

/-- A frame, of either transaction. -/
def IsFrame (c : Config) (f : List BusEvent) : Prop := (∃ v, f = clearFrame v) ∨ ∃ v m, f = refreshFrame c v m

theorem wholeTransactions_append {c : Config} {whole f : List BusEvent} (h : WholeTransactions c whole)
    (hf : IsFrame c f) : WholeTransactions c (whole ++ f) := by
  obtain ⟨frames, rfl, hframes⟩ := h
  refine ⟨frames ++ [f], by simp, fun g hg => ?_⟩
  rcases List.mem_append.1 hg with hg | hg
  · exact hframes g hg
  · rw [List.mem_singleton.1 hg]
    exact hf

/-- At the deassert all of the frame but its deassert has been sent (R73). -/
theorem currentFrame_deassert {s : State} (hi : EncoderInv s) (hp : s.pos = .clearDeassert ∨ s.pos = .refreshDeassert) :
    IsFrame s.cfg (currentFrame s) ∧ (currentFrame s).take s.callPos ++ [.deassertSelect] = currentFrame s := by
  unfold EncoderInv at hi
  rcases hp with hp | hp <;> rw [hp] at hi
  · simp only [currentFrame, hp, hi]
    exact ⟨.inl ⟨_, rfl⟩, rfl⟩
  · have hcall : s.callPos = ((refreshBytes s.cfg (frameVcom s) s.fb).map BusEvent.tx).length + 1 := by
      rw [List.length_map, length_refreshBytes, refreshTxCount, hi.2.2.2]
      omega
    simp only [currentFrame, hp]
    refine ⟨.inr ⟨_, _, rfl⟩, ?_⟩
    rw [hcall, refreshFrame, List.cons_append, List.take_succ_cons, List.take_left, List.cons_append]

theorem trace_encoderStep {s : State} (hi : Inv s) (h : TraceInv s) : TraceInv (encoderStep s) := by
  intro hf
  obtain ⟨hf, hans⟩ := encoderStep_noFault hf
  obtain ⟨whole, hwhole, htrace⟩ := h hf
  by_cases hp : HasCall s.pos
  · obtain ⟨b, hb⟩ := hans hp
    rcases txPos_or_deassert hp with ht | hd
    · have hcont := encoderStep_continues (hi.active (sel_of_hasCall hi.encoder hp)) hi.encoder hb ht
      refine ⟨whole, by rwa [hcont.cfg], ?_⟩
      rw [hcont.trace, hcont.frame, hcont.callPos, htrace, List.append_assoc, ← List.take_add]
    · obtain ⟨hframe, htake⟩ := currentFrame_deassert hi.encoder hd
      have htr := encoderStep_deassert_trace hb hd
      obtain ⟨m, hs, -⟩ := encoderStep_deassert hb hd
      refine ⟨whole ++ currentFrame s, ?_, ?_⟩
      · rw [hs]
        exact wholeTransactions_append hwhole hframe
      · have hnone : currentFrame (encoderStep s) = [] := by rw [hs]; rfl
        rw [htr, htrace, hnone, List.append_assoc, htake]
        simp
  · rw [encoderStep_none hp]
    exact ⟨whole, hwhole, htrace⟩

/-- The trace of a block that can execute a command is whole frames only. -/
theorem trace_of_ready {s : State} (hr : Ready s) (hi : EncoderInv s) (h : TraceInv s) :
    WholeTransactions s.cfg s.trace := by
  obtain ⟨whole, hwhole, htrace⟩ := h hr.1
  rw [currentFrame, idle_of_ready hi hr, List.take_nil, List.append_nil] at htrace
  rwa [htrace]

theorem trace_openTransaction {s : State} {p : EncoderPos} (hp : p = .clearCommand ∨ p = .refreshCommand)
    (hr : Ready s) (hi : EncoderInv s) (h : TraceInv s) : TraceInv (openTransaction p s) := by
  intro hf
  rcases nextAnswer_cases s with ⟨b, hb⟩ | hfail
  · refine ⟨s.trace, ?_, ?_⟩
    · rw [openTransaction_cfg]
      exact trace_of_ready hr hi h
    · rw [openTransaction_ok hb]
      rcases hp with rfl | rfl <;> simp [State.trace, currentFrame, clearFrame, refreshFrame]
  · rw [openTransaction_failed hfail] at hf
    exact absurd hf (failCall_faulted _)

theorem trace_commandRule {s : State} {i : Instr} (hi : startsTransaction i = false) (hr : Ready s)
    (he : EncoderInv s) (h : TraceInv s) : TraceInv (commandRule i s) := by
  have hs := commandRule_shape hi s
  have hcfg : (commandRule i s).cfg = s.cfg := (congrArg State.cfg hs :)
  have hpos : (commandRule i s).pos = .idle := (congrArg State.pos hs :).trans (idle_of_ready he hr)
  have htrace : (commandRule i s).trace = s.trace := (congrArg State.trace hs :)
  refine fun _ => ⟨s.trace, ?_, ?_⟩
  · rw [hcfg]
    exact trace_of_ready hr he h
  · rw [htrace, currentFrame, hpos, List.take_nil, List.append_nil]

/-- The state invariant with the form of the trace (R172). -/
theorem kept_trace : Kept fun s => Inv s ∧ TraceInv s where
  schedule rest h := ⟨kept_inv.schedule rest h.1, h.2⟩
  respond r h := ⟨kept_inv.respond r h.1, h.2⟩
  raise f hf hs h := ⟨kept_inv.raise f hf hs h.1, fun hn => absurd hn (stickyFault_ne _ hf)⟩
  call h := ⟨kept_inv.call h.1, trace_encoderStep h.1 h.2⟩
  free hi h := ⟨kept_inv.free hi h.1, fun hn => absurd hn (interrupted_fault hi)⟩
  rule i hi hr h := ⟨kept_inv.rule i hi hr h.1, trace_commandRule hi hr h.1.encoder h.2⟩
  start p hp hr h := ⟨kept_inv.start p hp hr h.1, trace_openTransaction hp hr h.1.encoder h.2⟩

theorem trace_takeReset (rot : Rotation) (bytes : List Byte) (s : State) : TraceInv (takeReset rot bytes s) :=
  fun _ => ⟨[], wholeTransactions_nil _, rfl⟩

/-- Settles O5: a call adds the next event of the current frame, the deassert completes the frame, and no other update
touches the trace of an unfaulted block. -/
theorem stepKeepsTheTraceWholeTransactions : Obligations.StepKeepsTheTraceWholeTransactions :=
  fun _ _ hi h hstep => (kept_trace.step ⟨hi, h⟩
    (fun rot bytes _ _ => ⟨inv_takeReset rot bytes _, trace_takeReset rot bytes _⟩) hstep).2

/-! ## RESET -/

theorem reset_eq_takeReset : State.reset = takeReset .deg0 [] State.reset := by decide

/-- Settles O2: the state after reset is one that RESET leaves. -/
theorem resetStateMeetsTheInvariants : Obligations.ResetStateMeetsTheInvariants := by
  unfold Obligations.ResetStateMeetsTheInvariants
  rw [reset_eq_takeReset]
  exact ⟨inv_takeReset _ _ _, polarity_takeReset _ _ _, trace_takeReset _ _ _⟩

/-- Settles O1: the state is the one of R160, whose buffer is the loaded list. -/
theorem resetEventLeavesTheResetValues : Obligations.ResetEventLeavesTheResetValues := by
  refine fun s rot bytes rest h => ⟨_, step_reset h, rfl, rfl, rfl, rfl, rfl, fun a ha hlen => ?_, rfl, rfl, rfl⟩
  have hread := readByte_loadBytes (m := []) rfl (bufferBytes s.cfg) bytes 0 a
  rw [if_pos (by omega), Nat.sub_zero, List.getElem?_eq_getElem hlen] at hread
  rw [List.getElem?_eq_getElem hlen]
  exact congrArg some hread

/-! ## The parameters and the fault register -/

theorem kept_cfg (c : Config) : Kept fun s => s.cfg = c where
  schedule _ h := h
  respond _ h := h
  raise _ _ _ h := h
  call {s} h := (encoderStep_shape s).1.trans h
  free _ h := h
  rule _ hi _ h := (congrArg State.cfg (commandRule_shape hi _) :).trans h
  start {s} p _ _ h := (openTransaction_cfg p s).trans h

/-- Settles O8: no update a step is made of writes the parameters, RESET included. -/
theorem stepKeepsTheParameters : Obligations.StepKeepsTheParameters :=
  fun s _ hstep => (kept_cfg s.cfg).step rfl (fun _ _ _ _ => rfl) hstep

/-- A recorded fault: commands are not executed, no fault is raised over it, and a call leaves it (R27). -/
theorem kept_fault {f : FaultRecord} (hf : f ≠ .noFault) : Kept fun s => s.fault = f where
  schedule _ h := h
  respond _ h := h
  raise _ _ hs h := absurd (h.symm.trans hs) hf
  call h := by
    rcases encoderStep_fault _ with he | ⟨hs, -⟩
    · exact he.trans h
    · exact absurd (h.symm.trans hs) hf
  free _ h := h
  rule _ _ hr h := absurd (h.symm.trans hr.1) hf
  start _ _ hr h := absurd (h.symm.trans hr.1) hf

/-- Settles O12: every update of a faulted block other than RESET leaves the fault. -/
theorem onlyResetClearsAFault : Obligations.OnlyResetClearsAFault :=
  fun _ _ hf hreset hstep => (kept_fault hf).step rfl (fun rot bytes rest h => absurd h (hreset rot bytes rest)) hstep

end Sys2Proof.Machine

/-! SUPPORT. The decoder and the encoder of the same tables (30_encoding.md R60 to R69). -/

namespace Sys2Proof

/-! ## Rows -/

theorem selects_iff {mask pattern w : CmdWord} : selects mask pattern w = true ↔ w &&& mask = pattern := by
  rw [selects, beq_iff_eq]

/-- A laid-out word of another operation code does not select a row. -/
theorem selects_commandWord_false {mask pattern : CmdWord} {op : BitVec 4} (r : BitVec 2) (val : Bit) (x y : Coord)
    (hm : opField mask = 15#4) (h : op ≠ opField pattern) :
    selects mask pattern (commandWord op r val x y) = false :=
  selects_false hm (by rwa [opField_commandWord])

/-- Every mask of the table covers `op`, whose value in a row is at most 8 (R67). -/
theorem commandRows_op : ∀ row ∈ Machine.commandRows, opField row.1 = 15#4 ∧ (opField row.2).toNat < 9 := by
  simp [Machine.commandRows, opField]

/-- Each row has an operation code of its own (R67). -/
theorem commandRows_ext : ∀ a ∈ Machine.commandRows, ∀ b ∈ Machine.commandRows, opField a.2 = opField b.2 → a = b := by
  simp [Machine.commandRows, opField]

/-! ## Decoding what was encoded -/

section
variable (r : BitVec 2) (val : Bit) (x y : Coord)

/-- The rows of an operand `r` read back (R67). -/
theorem decodeCommand_r : decodeCommand (commandWord 0x0#4 r 0#1 0#16 0#16) = .ok (.init (rotationOfCode r)) ∧
    decodeCommand (commandWord 0x6#4 r 0#1 0#16 0#16) = .ok (.setRotation (rotationOfCode r)) := by
  have h₀ := (selects_r 0x0#4 (commandWord 0x0#4 r 0#1 0#16 0#16)).2 (by rw [rField_commandWord])
  have h₆ := (selects_r 0x6#4 (commandWord 0x6#4 r 0#1 0#16 0#16)).2 (by rw [rField_commandWord])
  rw [show commandWord 0x0#4 0#2 0#1 0#16 0#16 = 0x0000000000#40 by decide] at h₀
  rw [show commandWord 0x6#4 0#2 0#1 0#16 0#16 = 0x6000000000#40 by decide] at h₆
  constructor
  · rw [decodeCommand, if_pos h₀, rField_commandWord]
  · simp (disch := decide) only [decodeCommand, selects_commandWord_false, h₆, if_true, rField_commandWord,
      Bool.false_eq_true, if_false]

/-- The row of the operands `val`, `x` and `y` reads back (R67). -/
theorem decodeCommand_valxy : decodeCommand (commandWord 0x1#4 0#2 val x y) = .ok (.setPixel val x y) := by
  have h := (selects_valxy 0x1#4 (commandWord 0x1#4 0#2 val x y)).2 (by simp)
  rw [show commandWord 0x1#4 0#2 0#1 0#16 0#16 = 0x1000000000#40 by decide] at h
  simp (disch := decide) only [decodeCommand, selects_commandWord_false, h, if_true, valField_commandWord,
    xField_commandWord, yField_commandWord, Bool.false_eq_true, if_false]

/-- The row of the operands `x` and `y` reads back (R67). -/
theorem decodeCommand_xy : decodeCommand (commandWord 0x2#4 0#2 0#1 x y) = .ok (.getPixel x y) := by
  have h := (selects_xy 0x2#4 (commandWord 0x2#4 0#2 0#1 x y)).2 (by simp)
  rw [show commandWord 0x2#4 0#2 0#1 0#16 0#16 = 0x2000000000#40 by decide] at h
  simp (disch := decide) only [decodeCommand, selects_commandWord_false, h, if_true, xField_commandWord,
    yField_commandWord, Bool.false_eq_true, if_false]

end

/-- Settles O53: each command's word selects its own row and none before it, from which the operands read back; a wire
byte is told by its position. -/
theorem decodeOfEncodeIsTheInstruction : Obligations.DecodeOfEncodeIsTheInstruction := by
  intro i hi
  cases i with
  | init r => exact (decodeCommand_r (rotationCode r)).1.trans (by rw [rotationOfCode_rotationCode])
  | setPixel val x y => exact decodeCommand_valxy val x y
  | getPixel x y => exact decodeCommand_xy x y
  | clearBuffer | clearDisplay | refresh | getWidth | getHeight => decide
  | setRotation r => exact (decodeCommand_r (rotationCode r)).2.trans (by rw [rotationOfCode_rotationCode])
  | wireCmdWrite v | wireCmdClear v => revert v; decide
  | wireLineAddr l => simpa [Instr.wellFormed, decodeAt, framePosition, encode, decodeWireAt] using hi
  | wireData d => rfl
  | wireTrailer => rfl

/-! ## Encoding what was decoded -/

/-- A word of the table is the encoding of the command it decodes to. -/
theorem encode_of_decodeCommand {w : CmdWord} {i : Instr} (h : decodeCommand w = .ok i) : encode i = .command w := by
  unfold decodeCommand at h
  split at h
  · next hs =>
    have hw := (selects_r 0x0#4 w).1 hs
    cases h
    rw [encode, rotationCode_rotationOfCode, ← hw]
  split at h
  · next hs =>
    have hw := (selects_valxy 0x1#4 w).1 hs
    cases h
    rw [encode, ← hw]
  split at h
  · next hs =>
    have hw := (selects_xy 0x2#4 w).1 hs
    cases h
    rw [encode, ← hw]
  split at h
  · next hs => cases h; exact congrArg Encoded.command ((selects_all _ _).1 hs).symm
  split at h
  · next hs => cases h; exact congrArg Encoded.command ((selects_all _ _).1 hs).symm
  split at h
  · next hs => cases h; exact congrArg Encoded.command ((selects_all _ _).1 hs).symm
  split at h
  · next hs =>
    have hw := (selects_r 0x6#4 w).1 hs
    cases h
    rw [encode, rotationCode_rotationOfCode, ← hw]
  split at h
  · next hs => cases h; exact congrArg Encoded.command ((selects_all _ _).1 hs).symm
  split at h
  · next hs => cases h; exact congrArg Encoded.command ((selects_all _ _).1 hs).symm
  split at h <;> cases h

theorem wellFormed_of_isCommand {i : Instr} (h : i.isCommand = true) : i.wellFormed = true := by
  cases i <;> first | rfl | cases h

/-- A first byte of a frame carries its polarity in bit 1 (R60, R61). -/
theorem commandByte_of_masked (b : Byte) :
    (b &&& 0xFD#8 = 0x01#8 → writeCommandByte (b.extractLsb' 1 1) = b) ∧
    (b &&& 0xFD#8 = 0x04#8 → clearCommandByte (b.extractLsb' 1 1) = b) := by
  revert b; decide

theorem encode_of_decodeWireAt {p : FramePosition} {b : Byte} {i : Instr} (h : decodeWireAt p b = .ok i) :
    encode i = .wire b ∧ framePosition i = p ∧ i.wellFormed = true ∧ i.isCommand = false := by
  obtain ⟨hwrite, hclear⟩ := commandByte_of_masked b
  cases p with
  | command =>
    simp only [decodeWireAt] at h
    split at h
    · next hb => cases h; exact ⟨congrArg Encoded.wire (hwrite hb), rfl, rfl, rfl⟩
    · split at h
      · next hb => cases h; exact ⟨congrArg Encoded.wire (hclear hb), rfl, rfl, rfl⟩
      · cases h
  | lineAddress =>
    simp only [decodeWireAt] at h
    split at h
    · cases h
    · next hb => cases h; exact ⟨rfl, rfl, by simpa [Instr.wellFormed] using hb, rfl⟩
  | data => cases h; exact ⟨rfl, rfl, rfl, rfl⟩
  | trailer =>
    simp only [decodeWireAt] at h
    split at h
    · next hb => cases h; exact ⟨congrArg Encoded.wire hb.symm, rfl, rfl, rfl⟩
    · cases h

/-- Settles O54: a word is laid out from the fields its row reads, and a wire byte is the item of its position. -/
theorem encodeOfDecodeIsTheWord : Obligations.EncodeOfDecodeIsTheWord := by
  refine ⟨fun w i h => ?_, fun p b i h => encode_of_decodeWireAt h⟩
  have hi := (Machine.decodeCommand_ok h).1
  exact ⟨encode_of_decodeCommand h, wellFormed_of_isCommand hi, hi⟩

/-! ## The words the decoder accepts -/

/-- A word that selects none of the nine rows is rejected by its operation code. -/
theorem decodeCommand_of_noRow {w : CmdWord} (h : Machine.MatchesNoRow w) :
    decodeCommand w = if opField w ≤ 8#4 then .error (.unusedBits (opField w)) else .error (.reservedOp (opField w)) := by
  simp only [Machine.MatchesNoRow, Machine.commandRows, List.forall_mem_cons, ne_eq, ← selects_iff] at h
  obtain ⟨h₀, h₁, h₂, h₃, h₄, h₅, h₆, h₇, h₈, -⟩ := h
  rw [decodeCommand, if_neg h₀, if_neg h₁, if_neg h₂, if_neg h₃, if_neg h₄, if_neg h₅, if_neg h₆, if_neg h₇, if_neg h₈]

/-- A word that is rejected selects none of the nine rows. -/
theorem noRow_of_error {w : CmdWord} {e : DecodeError} (h : decodeCommand w = .error e) : Machine.MatchesNoRow w := by
  simp only [Machine.MatchesNoRow, Machine.commandRows, List.forall_mem_cons, ne_eq, ← selects_iff]
  unfold decodeCommand at h
  repeat' split at h
  all_goals first
    | (cases h; done)
    | simp_all

/-- A reserved operation code is that of no row (R69). -/
theorem noRow_of_reservedOp {w : CmdWord} (h : 9 ≤ (opField w).toNat) : Machine.MatchesNoRow w := by
  intro row hrow hw
  obtain ⟨hmask, hlt⟩ := commandRows_op row hrow
  rw [op_of_selects (selects_iff.2 hw) hmask] at h
  omega

/-- Settles O55: the decoder tries the nine rows and rejects what none of them selects; a word has one operation code,
and each row has its own, at most 8. -/
theorem decoderAcceptsExactlyTheRows : Obligations.DecoderAcceptsExactlyTheRows := by
  refine ⟨fun w => ⟨fun h => ?_, fun ⟨e, h⟩ => noRow_of_error h⟩, fun w a ha b hb hwa hwb => ?_, fun w h => ?_⟩
  · rw [decodeCommand_of_noRow h]
    split <;> exact ⟨_, rfl⟩
  · have hopa := op_of_selects (selects_iff.2 hwa) (commandRows_op a ha).1
    have hopb := op_of_selects (selects_iff.2 hwb) (commandRows_op b hb).1
    exact commandRows_ext a ha b hb (hopa.symm.trans hopb)
  · have hop : ¬ opField w ≤ 8#4 := by
      rw [BitVec.le_def]
      exact Nat.not_le.2 h
    rw [decodeCommand_of_noRow (noRow_of_reservedOp h), if_neg hop]
    rfl

/-- Settles O56: each word and byte is decoded by evaluation. -/
theorem sampleWordsDecode : Obligations.SampleWordsDecode := by
  unfold Obligations.SampleWordsDecode
  decide

end Sys2Proof

/-! SUPPORT. What a step answers: the dispatch checks (42_device_control.md R130), the hazards (70_reset_and_hazards.md
R164), the fault that stays (60_exceptions.md R147) and an illegal word in mid-transaction. -/

namespace Sys2Proof.Machine

/-! ## Every word has an answer -/

/-- With a malformed configuration faulted, a dispatched command answers a next state. -/
theorem dispatch_answers {s : State} (h : ConfigInv s) (op : BitVec 4) (body : State → State) :
    ∃ t, dispatch op body s = .next t := by
  by_cases hf : s.fault = .noFault
  · have hc : configOK s.cfg = true := by
      by_contra hc
      exact h (by simpa using hc) hf
    by_cases hs : s.sel = .asserted
    · exact ⟨_, dispatch_overlap hf hc hs op body⟩
    · exact ⟨_, dispatch_ready ⟨hf, hc, not_asserted hs⟩ op body⟩
  · exact ⟨_, dispatch_sticky hf op body⟩

theorem present_answers {s : State} (h : ConfigInv s) (w : CmdWord) :
    (∃ t, present w s = .next t) ∧ ∃ t, presentByCalls w s = .next t := by
  cases hd : decodeCommand w with
  | error e => exact ⟨⟨_, present_error hd s⟩, ⟨_, presentByCalls_error hd s⟩⟩
  | ok i =>
    have hi := (decodeCommand_ok hd).1
    rw [present_ok hd, presentByCalls_ok hd, exec_dispatch hi, execByCalls_eq hi]
    exact ⟨dispatch_answers h _ _, dispatch_answers h _ _⟩

theorem present_ne_refused (w : CmdWord) (s : State) (r : Refusal) :
    present w s ≠ .refused r ∧ presentByCalls w s ≠ .refused r := by
  cases hd : decodeCommand w with
  | error e => rw [present_error hd, presentByCalls_error hd]; simp
  | ok i =>
    have hi := (decodeCommand_ok hd).1
    rw [present_ok hd, presentByCalls_ok hd, exec_dispatch hi, execByCalls_eq hi]
    exact ⟨dispatch_ne_refused _ _ _ _, dispatch_ne_refused _ _ _ _⟩

/-- Outside a transaction that goes on a quiet step has an answer. -/
theorem quietStep_outside {s : State} (hm : ¬ MidTransaction s) : ∃ t, quietStep s = .next t := by
  by_cases hi : interrupted s = true
  · exact ⟨_, quietStep_interrupted hi⟩
  · exact ⟨_, quietStep_idle hm (by simpa using hi)⟩

theorem quietStep_ne_refused (s : State) (r : Refusal) : quietStep s ≠ .refused r := by
  by_cases hm : MidTransaction s
  · rw [quietStep_mid hm]
    split <;> simp
  · obtain ⟨t, ht⟩ := quietStep_outside hm
    rw [ht]
    simp

theorem presentTogether_ne_refused (w₁ w₂ : CmdWord) (s : State) (r : Refusal) :
    presentTogether w₁ w₂ s ≠ .refused r := by
  unfold presentTogether
  split
  · simp
  · split
    · exact (present_ne_refused w₂ _ r).1
    · simp
    · next r' h => exact absurd h (present_ne_refused w₁ s r').1

/-- Settles O7: a decoded word is a command's, which is dispatched, and a quiet step runs only the item in place. -/
theorem noStepIsRefused : Obligations.NoStepIsRefused := by
  intro s r
  cases hs : s.schedule with
  | nil => rw [step_nil hs]; exact quietStep_ne_refused s r
  | cons e rest =>
    cases e with
    | quiet => rw [step_quiet hs]; exact quietStep_ne_refused _ r
    | command w => rw [step_command hs]; exact (present_ne_refused w _ r).1
    | commandByCalls w => rw [step_commandByCalls hs]; exact (present_ne_refused w _ r).2
    | together w₁ w₂ => rw [step_together hs]; exact presentTogether_ne_refused w₁ w₂ _ r
    | reset rot bytes => rw [step_reset hs]; simp

theorem quietStep_answers {s : State} (h : Inv s) : ∃ t, quietStep s = .next t := by
  by_cases hm : MidTransaction s
  · exact ⟨_, quietStep_running (h.active hm.2.1) h.encoder hm⟩
  · exact quietStep_outside hm

/-- Two words at once in a block that is faulted or in mid-transaction: the first leaves a fault, which answers the
second. -/
theorem presentTogether_answers {s : State} (h : ConfigInv s) (hn : ¬ GoodEnd s) (w₁ w₂ : CmdWord) :
    ∃ u, present w₁ s = .next u ∧ presentTogether w₁ w₂ s = .next (respondSticky u) := by
  obtain ⟨u, hu⟩ := (present_answers h w₁).1
  have hf := (present_cases hu).faulted fun hr => hn ⟨hr.1, hr.2.2⟩
  refine ⟨u, hu, ?_⟩
  have htogether : presentTogether w₁ w₂ s = _ := if_neg hn
  rw [htogether, hu]
  exact (present_sticky hf w₂).1

/-- Settles O6: of the two stops of a step the invariant excludes one, a malformed configuration without a fault, and
a byte the buffer lacks; what is left are two words at once at an idle block. -/
theorem stepAnswersUnlessTwoCommandsAtOnce : Obligations.StepAnswersUnlessTwoCommandsAtOnce := by
  intro s h
  cases hs : s.schedule with
  | nil => exact .inl (by rw [step_nil hs]; exact quietStep_answers h)
  | cons e rest =>
    have h' : Inv { s with schedule := rest } := kept_inv.schedule rest h
    cases e with
    | quiet => exact .inl (by rw [step_quiet hs]; exact quietStep_answers h')
    | command w => exact .inl (by rw [step_command hs]; exact (present_answers h'.config w).1)
    | commandByCalls w => exact .inl (by rw [step_commandByCalls hs]; exact (present_answers h'.config w).2)
    | together w₁ w₂ =>
      by_cases hg : GoodEnd s
      · exact .inr ⟨hg, w₁, w₂, rest, rfl⟩
      · obtain ⟨u, -, ht⟩ := presentTogether_answers (s := { s with schedule := rest }) h'.config hg w₁ w₂
        exact .inl ⟨_, (step_together hs).trans ht⟩
    | reset rot bytes => exact .inl ⟨_, step_reset hs⟩

/-! ## An idle block, and what a step runs -/

theorem quietStep_deasserted {s : State} (h : s.sel = .deasserted) : quietStep s = .next s := by
  refine quietStep_idle (fun hm => ?_) ?_
  · have hs := hm.2.1
    rw [h] at hs
    cases hs
  · unfold interrupted
    rw [h]
    split <;> simp_all

/-- Settles O9: with `sel = 0` no transaction is in progress and none was interrupted. -/
theorem idleBlockKeepsItsState : Obligations.IdleBlockKeepsItsState :=
  fun s rest hs h => (step_of_quiet h).trans (quietStep_deasserted (s := { s with schedule := rest }) hs)

theorem execByCalls_exec {i : Instr} (hi : i.isCommand = true) (h : startsTransaction i = false) (s : State) :
    execByCalls i s = exec i s := by
  rw [execByCalls_eq hi, byCallsRule_eq h, exec_dispatch hi]

/-- Settles O10: a word is decoded and executed, and a quiet step in mid-transaction is the item in its place. -/
theorem stepRunsTheDecodedInstruction : Obligations.StepRunsTheDecodedInstruction := by
  refine ⟨fun s w i rest hs hd => ?_, fun s i rest hs hm hw => ?_, fun s w i rest hs hd hi => ?_⟩
  · rw [step_command hs, present_ok hd]
  · have hm : MidTransaction { s with schedule := rest } := hm
    have hw : wireItemAt { s with schedule := rest } = some i := hw
    rw [step_of_quiet hs, quietStep, if_pos (transactionRuns_of hm), hw]
  · rw [step_commandByCalls hs, presentByCalls_ok hd, execByCalls_exec (decodeCommand_ok hd).1 hi]

/-! ## The dispatch checks -/

/-- A word that is answered alike in both forms. -/
theorem step_of_arrives {s t : State} {w : CmdWord} {rest : List HostEvent} (h : Arrives w rest s)
    (hp : present w { s with schedule := rest } = .next t ∧ presentByCalls w { s with schedule := rest } = .next t) :
    step s = .next t := by
  rcases h with h | h
  · rw [step_command h, hp.1]
  · rw [step_commandByCalls h, hp.2]

theorem step_sticky {s : State} {w : CmdWord} {rest : List HostEvent} (hf : s.fault ≠ .noFault)
    (h : Arrives w rest s) : step s = .next (respondSticky { s with schedule := rest }) :=
  step_of_arrives h (present_sticky (s := { s with schedule := rest }) hf w)

/-- Settles O11: check 1 comes first, and the sticky fault's answer is a response and nothing else. -/
theorem faultedBlockAnswersOnlyItsFault : Obligations.FaultedBlockAnswersOnlyItsFault :=
  fun _ _ _ hf h => ⟨_, step_sticky hf h, rfl, rfl⟩

/-- Settles O13: a word of no row is rejected by the decoder, and the fault it raises is the first. -/
theorem unmatchedWordRaisesIllegalCommand : Obligations.UnmatchedWordRaisesIllegalCommand := by
  intro s w rest hf hw h
  obtain ⟨e, he⟩ := (decoderAcceptsExactlyTheRows.1 w).1 hw
  have hill := illegalWord_first (s := { s with schedule := rest }) hf w
  refine ⟨raiseFault (.illegalCommand w) { s with schedule := rest }, step_of_arrives h ?_, ?_, rfl, rfl⟩
  · rw [present_error he, presentByCalls_error he, hill]
    exact ⟨rfl, rfl⟩
  · rw [raiseFault_fault, hf, stickyFault_noFault]

/-- A legal word at an unfaulted block in mid-transaction, in either form (R130, check 3). -/
theorem present_overlap {s : State} {w : CmdWord} {i : Instr} (hf : s.fault = .noFault) (hc : configOK s.cfg = true)
    (hs : s.sel = .asserted) (hd : decodeCommand w = .ok i) :
    present w s = .next (raiseFault (.txnOverlap (opField w)) s) ∧
    presentByCalls w s = .next (raiseFault (.txnOverlap (opField w)) s) := by
  obtain ⟨hi, hop⟩ := decodeCommand_ok hd
  rw [present_ok hd, presentByCalls_ok hd, execByCalls_eq hi, hop]
  exact ⟨exec_overlap hi hf hc hs, dispatch_overlap hf hc hs _ _⟩

/-- Settles O14: check 3, whose fault is the first and records the operation code of the word. -/
theorem commandInMidTransactionRaisesTxnOverlap : Obligations.CommandInMidTransactionRaisesTxnOverlap := by
  intro s w i rest hf hc hs hd h
  refine ⟨_, step_of_arrives h (present_overlap (s := { s with schedule := rest }) hf hc hs hd), ?_, rfl, rfl⟩
  rw [raiseFault_fault, hf, stickyFault_noFault]
  rfl

/-- Settles O15: RESET of a malformed configuration records ConfigFault, which answers the word. -/
theorem malformedConfigurationAnswersConfigFault : Obligations.MalformedConfigurationAnswersConfigFault := by
  intro s rot bytes w rest hbad h
  have hc : configOK s.cfg = false := by
    rw [← Bool.not_eq_true, configOK_iff]
    unfold nativeWidth nativeHeight
    omega
  obtain ⟨e, hs, he⟩ : ∃ e, s.schedule = .reset rot bytes :: e :: rest ∧ (e = .command w ∨ e = .commandByCalls w) := by
    rcases h with h | h
    · exact ⟨_, h, .inl rfl⟩
    · exact ⟨_, h, .inr rfl⟩
  obtain ⟨t, ht, hfault, hsched, hresp⟩ : ∃ t, step s = .next t ∧ t.fault = .configFault ∧ t.schedule = e :: rest ∧
      t.responses = [] :=
    ⟨_, step_reset hs, by simp [takeReset, State.afterReset, hc], rfl, rfl⟩
  have harr : Arrives w rest t := by
    rcases he with rfl | rfl
    · exact .inl hsched
    · exact .inr hsched
  refine ⟨t, _, ht, step_sticky (by rw [hfault]; simp) harr, hfault, hfault, ?_⟩
  rw [respondSticky_eq, respond_responses, hresp, hfault]
  rfl

/-- Settles O16: an idle block has no step for two words at once; in mid-transaction the first raises TxnOverlap and
the second is answered by it. -/
theorem commandsAtOnceHaveNoStepWhenIdle : Obligations.CommandsAtOnceHaveNoStepWhenIdle := by
  refine ⟨fun s w₁ w₂ rest h hf hs => ?_, fun s w₁ w₂ i rest h hf hc hs hd => ?_⟩
  · rw [step_together h]
    exact if_pos ⟨hf, hs⟩
  · have hov := (present_overlap (s := { s with schedule := rest }) hf hc hs hd).1
    have hfault : (raiseFault (.txnOverlap (opField w₁)) { s with schedule := rest }).fault = .txnOverlap (opField w₁) := by
      rw [raiseFault_fault, hf, stickyFault_noFault]
    have hn : ¬ GoodEnd { s with schedule := rest } := fun hg => by
      have hd : s.sel = .deasserted := hg.2
      rw [hs] at hd
      cases hd
    obtain ⟨u, hu, ht⟩ := presentTogether_answers (fun hbad => absurd hc (by simpa using hbad)) hn w₁ w₂
    rw [hov] at hu
    cases hu
    refine ⟨_, (step_together h).trans ht, hfault, ?_⟩
    rw [respondSticky_eq, respond_responses, hfault, raiseFault_responses, List.append_assoc]
    rfl

/-! ## The polarity bit -/

/-- A word changes `vcom` only by executing a command. -/
theorem WordOutcome.vcom {rule : Instr → State → State} {w : CmdWord} {s t : State} (ho : WordOutcome rule w s t)
    (hv : t.vcom ≠ s.vcom) : ∃ i, Ready s ∧ decodeCommand w = .ok i ∧ t = rule i s := by
  cases ho with
  | sticky hf => exact absurd rfl hv
  | illegal e hf hd => exact absurd rfl hv
  | overlap i hf hc hs hd => exact absurd rfl hv
  | execute i hr hd => exact ⟨i, hr, hd, rfl⟩

theorem quietStep_vcom {s t : State} (h : quietStep s = .next t) (hv : t.vcom ≠ s.vcom) : MidTransaction s := by
  rcases quietStep_cases h with ⟨hm, -⟩ | ⟨-, rfl⟩ | rfl
  · exact hm
  · exact absurd rfl hv
  · exact absurd rfl hv

/-- Settles O42: faults and the other commands leave `vcom`, so a step that changes it executes a transaction command,
makes a call of a transaction, or resets. -/
theorem vcomChangesOnlyInTransactionsAndReset : Obligations.VcomChangesOnlyInTransactionsAndReset := by
  intro s t hstep hv
  cases hs : s.schedule with
  | nil =>
    rw [step_nil hs] at hstep
    exact .inr (.inr ⟨quietStep_vcom hstep hv, .inl rfl⟩)
  | cons e rest =>
    cases e with
    | quiet =>
      rw [step_quiet hs] at hstep
      exact .inr (.inr ⟨quietStep_vcom (s := { s with schedule := rest }) hstep hv, .inr ⟨rest, rfl⟩⟩)
    | command w =>
      rw [step_command hs] at hstep
      obtain ⟨i, hr, hd, rfl⟩ := (present_cases hstep).vcom hv
      refine .inr (.inl ⟨hr, w, i, rest, .inl hs, hd, ?_⟩)
      by_contra hi
      exact hv (commandRule_vcom (by simpa using hi) _)
    | commandByCalls w =>
      rw [step_commandByCalls hs] at hstep
      obtain ⟨i, hr, hd, rfl⟩ := (presentByCalls_cases hstep).vcom hv
      refine .inr (.inl ⟨hr, w, i, rest, .inr hs, hd, ?_⟩)
      by_contra hi
      have hi : startsTransaction i = false := by simpa using hi
      rw [byCallsRule_eq hi] at hv
      exact hv (commandRule_vcom hi _)
    | together w₁ w₂ =>
      rw [step_together hs] at hstep
      obtain ⟨u, hu, hn, rfl⟩ := presentTogether_cases hstep
      obtain ⟨i, hr, -⟩ := hu.vcom hv
      exact absurd hr hn
    | reset rot bytes => exact .inl ⟨rot, bytes, rest, rfl⟩

/-! ## An illegal word in mid-transaction -/

section
variable {s : State} {f : FaultRecord}

/-- The updates after a transmitted byte read neither the fault register nor the answers. -/
theorem afterTx_withInputs (s : State) (f : FaultRecord) (as : List Answer) :
    afterTx { s with fault := f, answers := as } = { afterTx s with fault := f, answers := as } := by
  by_cases hd : s.pos = .data
  · rw [afterTx_data hd, afterTx_data (s := { s with fault := f, answers := as }) hd]
    by_cases hline : currentLine s ≠ s.prevLine
    · rw [if_pos hline]; exact if_pos hline
    · rw [if_neg hline]; exact if_neg hline
  by_cases hl : s.pos = .lineTrailer
  · rw [afterTx_lineTrailer hl, afterTx_lineTrailer (s := { s with fault := f, answers := as }) hl]
    by_cases hline : currentLine s ≤ nativeHeight s.cfg
    · rw [if_pos hline]; exact if_pos hline
    · rw [if_neg hline]; exact if_neg hline
  unfold afterTx
  cases hp : s.pos <;> simp only [hp]
  case data => exact absurd hp hd
  case lineTrailer => exact absurd hp hl
  all_goals rfl

/-- The calls of a transaction do not read the fault register, and a fault recorded before stays (R27, R104). -/
theorem encoderStep_withFault (hf : f ≠ .noFault) :
    encoderStep { s with fault := f } = { encoderStep s with fault := f } := by
  by_cases hp : HasCall s.pos
  · rcases nextAnswer_cases s with ⟨b, hb⟩ | hfail
    · rcases txPos_or_deassert hp with ht | hd
      · rw [encoderStep_sent hb ht, encoderStep_sent (s := { s with fault := f }) hb ht]
        refine (afterTx_withInputs (recordCall (.tx (nextByte s)) (useAnswer s)) f s.answers.tail).trans ?_
        simp only [afterTx_answers, recordCall_answers, useAnswer_answers]
      · obtain ⟨m, hs, hm⟩ := encoderStep_deassert hb hd
        obtain ⟨m', hs', hm'⟩ := encoderStep_deassert (s := { s with fault := f }) hb hd
        rw [hs, hs', hm, hm']
    · rw [encoderStep_failed hfail hp, encoderStep_failed (s := { s with fault := f }) hfail hp]
      have hstay : stickyFault f (.transportFault s.callPos) = f := stickyFault_recorded hf _
      simp only [failCall, raiseFault, respond, useAnswer, hstay]
  · rw [encoderStep_none hp, encoderStep_none (s := { s with fault := f }) hp]

end

/-- Settles O57: with or without the illegal word the step is the encoder's next call, or, with the transaction
stopped, nothing. -/
theorem illegalWordDoesNotStopTheTransaction : Obligations.IllegalWordDoesNotStopTheTransaction := by
  intro s u w rest hf hs hsched hstep
  have hill : step { s with fault := .illegalCommand w } =
      quietStep { s with schedule := rest, fault := .illegalCommand w } := step_of_quiet hsched
  rw [step_of_quiet hsched] at hstep
  rw [hill]
  by_cases hp : s.pos = .stopped
  · have hq : quietStep { s with schedule := rest } = .next { s with schedule := rest } :=
      quietStep_idle (fun hm => hm.2.2 hp) (by simp [interrupted, hf])
    have hq' : quietStep { s with schedule := rest, fault := .illegalCommand w } =
        .next { s with schedule := rest, fault := .illegalCommand w } :=
      quietStep_idle (fun hm => hm.2.2 hp) (by simp [interrupted])
    rw [hq] at hstep
    cases hstep
    exact ⟨hq', .inl hf⟩
  · have hq := quietStep_mid (s := { s with schedule := rest }) ⟨.inl hf, hs, hp⟩
    have hq' := quietStep_mid (s := { s with schedule := rest, fault := .illegalCommand w }) ⟨.inr ⟨w, rfl⟩, hs, hp⟩
    rw [hq] at hstep
    split at hstep
    · cases hstep
    · next hdata =>
      cases hstep
      have hcall := encoderStep_withFault (s := { s with schedule := rest }) (f := .illegalCommand w) (by simp)
      refine ⟨(hq'.trans (if_neg hdata)).trans (congrArg Host.Outcome.next hcall), ?_⟩
      rcases encoderStep_fault { s with schedule := rest } with he | ⟨-, he⟩
      · exact .inl (he.trans hf)
      · exact .inr he

end Sys2Proof.Machine

/-! SUPPORT. The rotation transform and the commands that make no transport call (40_framebuffer.md,
42_device_control.md). -/

namespace Sys2Proof.Machine

/-! ## The transform -/

/-- A transformed coordinate is in range exactly in the logical rectangle (R87). -/
theorem inRange_transform (c : Config) (r : Rotation) (x y : Int) : InRange c (transform c r x y) ↔
    (0 ≤ x ∧ x < (logicalWidth c r).toNat) ∧ (0 ≤ y ∧ y < (logicalHeight c r).toNat) := by
  cases r <;> simp only [transform, InRange, logicalWidth, logicalHeight, nativeWidth, nativeHeight] <;> omega

/-- The inverse of the transform (40_framebuffer.md section 2). -/
def untransform (c : Config) (r : Rotation) (q : Int × Int) : Int × Int :=
  match r with
  | .deg0 => q
  | .deg90 => (q.2, nativeWidth c - 1 - q.1)
  | .deg180 => (nativeWidth c - 1 - q.1, nativeHeight c - 1 - q.2)
  | .deg270 => (nativeHeight c - 1 - q.2, q.1)

theorem transform_untransform (c : Config) (r : Rotation) (q : Int × Int) :
    transform c r (untransform c r q).1 (untransform c r q).2 = q := by
  cases r <;> simp [transform, untransform]

theorem untransform_transform (c : Config) (r : Rotation) (x y : Int) :
    untransform c r (transform c r x y) = (x, y) := by
  cases r <;> simp [transform, untransform]

/-- Settles O18: the in-range coordinates are the images of the logical rectangle, and the inverse formulas undo the
transform on both sides. -/
theorem transformIsABijectionOfRectangles : Obligations.TransformIsABijectionOfRectangles := by
  refine fun c r => ⟨inRange_transform c r, fun q _ => ⟨_, _, transform_untransform c r q, fun x' y' h => ?_⟩⟩
  rw [← h, untransform_transform]
  exact ⟨rfl, rfl⟩

/-- Settles O19: the inverse formulas undo the transform, and the two quarter turns compose to a shift by the
difference of `W` and `H`. -/
theorem transformInversesAndCompositions : Obligations.TransformInversesAndCompositions := by
  refine fun c x y => ⟨untransform_transform c .deg180 x y, untransform_transform c .deg90 x y,
    untransform_transform c .deg270 x y, ?_, ?_, ?_⟩
  · simp only [transform, nativeWidth, nativeHeight, Prod.mk.injEq, true_and]
    omega
  · simp only [transform, nativeWidth, nativeHeight, Prod.mk.injEq, and_true]
    omega
  · simp only [transform, nativeWidth, nativeHeight, Prod.mk.injEq, true_and, BitVec.toNat_eq]
    omega

/-! ## The pixel commands -/

section
variable {s : State} {x y : Coord}

/-- SET_PIXEL on a coordinate in range is the write of the one bit, and `Done` (R88). -/
theorem exec_setPixel_inRange (v : Bit) (hr : Ready s) (hp : InRange s.cfg (transform s.cfg s.rot x.toInt y.toInt)) :
    exec (.setPixel v x y) s = .next (respond .done (setFbBit v (transform s.cfg s.rot x.toInt y.toInt) s)) := by
  rw [exec_ready rfl hr, commandRule, setPixelRule_of_inRange v hp, nativeOf]

/-- SET_PIXEL on a coordinate out of range is `Done` alone (R88, R145). -/
theorem exec_setPixel_miss (v : Bit) (hr : Ready s) (hp : ¬ InRange s.cfg (transform s.cfg s.rot x.toInt y.toInt)) :
    exec (.setPixel v x y) s = .next (respond .done s) := by
  rw [exec_ready rfl hr, commandRule, setPixelRule_of_not v hp]

theorem exec_getPixel_inRange (hr : Ready s) (hp : InRange s.cfg (transform s.cfg s.rot x.toInt y.toInt)) :
    exec (.getPixel x y) s =
      .next (respond (.pixel 1#1 (fbBit s (transform s.cfg s.rot x.toInt y.toInt))) s) := by
  rw [exec_ready rfl hr, commandRule, getPixelRule_of_inRange hp, nativeOf]

theorem exec_getPixel_miss (hr : Ready s) (hp : ¬ InRange s.cfg (transform s.cfg s.rot x.toInt y.toInt)) :
    exec (.getPixel x y) s = .next (respond (.pixel 0#1 0#1) s) := by
  rw [exec_ready rfl hr, commandRule, getPixelRule_of_not hp]

end

/-- Settles O21: in range one byte is written, and a byte read after it is the new one or as before. -/
theorem setPixelWritesTheAddressedByte : Obligations.SetPixelWritesTheAddressedByte := by
  rintro s v x y p hr hb rfl
  by_cases hp : InRange s.cfg (transform s.cfg s.rot x.toInt y.toInt)
  · refine ⟨_, exec_setPixel_inRange v hr hp, fun _ => ?_, fun a ha => ?_, rfl, rfl⟩
    · rw [respond_fb, setFbBit_fb, readByte_writeByte hb, if_pos rfl]
      rfl
    · rw [respond_fb, setFbBit_fb, readByte_writeByte hb, if_neg (ha hp)]
  · exact ⟨_, exec_setPixel_miss v hr hp, fun h => absurd h hp, fun _ _ => rfl, rfl, rfl⟩

/-- Settles O22: a fault leaves the buffer, and so does a miss; a hit changes the bit it addresses alone. -/
theorem setPixelChangesAtMostOneBit : Obligations.SetPixelChangesAtMostOneBit := by
  intro s t v x y q hc hb h hq hne
  rcases exec_cases (i := .setPixel v x y) rfl h with ⟨-, rfl⟩ | ⟨-, -, -, rfl⟩ | ⟨hr, rfl⟩
  · rfl
  · rfl
  · by_cases hp : InRange s.cfg (nativeOf s.cfg s.rot x y)
    · rw [commandRule, setPixelRule_of_inRange v hp]
      exact (fbBit_setFbBit hb hc hp hq v).trans (if_neg hne)
    · rw [commandRule, setPixelRule_of_not v hp]
      rfl

/-- Settles O23: a hit answers the addressed bit, a miss `Pixel(0, 0)`, and both only respond. -/
theorem getPixelAnswersTheAddressedBit : Obligations.GetPixelAnswersTheAddressedBit := by
  rintro s x y p hr rfl
  by_cases hp : InRange s.cfg (transform s.cfg s.rot x.toInt y.toInt)
  · exact ⟨_, exec_getPixel_inRange hr hp, by rw [if_pos hp]; rfl, fun _ => rfl, rfl⟩
  · exact ⟨_, exec_getPixel_miss hr hp, by rw [if_neg hp]; rfl, fun _ => rfl, rfl⟩

/-- Settles O24: in the logical rectangle the transform is in range, where the bit written is the bit read. -/
theorem pixelWrittenIsThePixelRead : Obligations.PixelWrittenIsThePixelRead := by
  intro s v x y hr hb hx₀ hx hy₀ hy
  have ⟨_, hc, _⟩ := hr
  have hp := (inRange_transform s.cfg s.rot x.toInt y.toInt).2 ⟨⟨hx₀, hx⟩, hy₀, hy⟩
  have hbit : fbBit (setFbBit v (transform s.cfg s.rot x.toInt y.toInt) s) (transform s.cfg s.rot x.toInt y.toInt) = v :=
    (fbBit_setFbBit hb hc hp hp v).trans (if_pos rfl)
  refine ⟨_, _, exec_setPixel_inRange v hr hp, exec_getPixel_inRange
    (s := respond .done (setFbBit v (transform s.cfg s.rot x.toInt y.toInt) s)) hr hp, hbit, ?_, fun q hq hne => ?_⟩
  · have hread : fbBit (respond .done (setFbBit v (transform s.cfg s.rot x.toInt y.toInt) s))
        (transform s.cfg s.rot x.toInt y.toInt) = v := hbit
    simp [hread]
  · exact (fbBit_setFbBit hb hc hp hq v).trans (if_neg hne)

/-- Settles O25: a miss of either command is a response and nothing else. -/
theorem outOfRangeCoordinateIsNoFault : Obligations.OutOfRangeCoordinateIsNoFault :=
  fun _ v _ _ hr hp => ⟨_, _, exec_setPixel_miss v hr hp, exec_getPixel_miss hr hp, rfl, hr.1, fun _ => rfl, rfl, hr.1⟩

/-! ## The other commands -/

/-- Settles O27: the rule writes `rot` and responds. -/
theorem setRotationSetsRotAlone : Obligations.SetRotationSetsRotAlone :=
  fun _ r hr => ⟨_, exec_ready (i := .setRotation r) rfl hr, rfl, rfl, fun _ => rfl, rfl⟩

/-- Settles O28: the rule is the blank buffer with `rot` written. -/
theorem initBlanksTheBufferAndSetsRot : Obligations.InitBlanksTheBufferAndSetsRot :=
  fun _ r hr hb => ⟨_, exec_ready (i := .init r) rfl hr, rfl, readByte_blankBuffer hb, rfl, rfl⟩

/-- The logical extent is the native one, exchanged at the quarter turns (R87). -/
theorem logicalExtent_eq (c : Config) (r : Rotation) :
    logicalWidth c r = (if r = .deg0 ∨ r = .deg180 then c.width else c.height) ∧
    logicalHeight c r = (if r = .deg0 ∨ r = .deg180 then c.height else c.width) := by
  cases r <;> exact ⟨rfl, rfl⟩

/-- Settles O29: the two queries respond with the logical extent and do nothing else. -/
theorem dimensionQueriesAnswerTheLogicalExtent : Obligations.DimensionQueriesAnswerTheLogicalExtent := by
  intro s hr
  obtain ⟨hw, hh⟩ := logicalExtent_eq s.cfg s.rot
  refine ⟨_, _, exec_ready (i := .getWidth) rfl hr, exec_ready (i := .getHeight) rfl hr, ?_, ?_, fun _ => ⟨rfl, rfl⟩,
    rfl, rfl⟩
  · rw [← hw]; rfl
  · rw [← hh]; rfl

/-- Settles O30: a fault touches the fault register and the responses, and the rule of such a command the buffer, `rot`
and the responses. -/
theorem otherCommandsMakeNoTransportCall : Obligations.OtherCommandsMakeNoTransportCall := by
  intro i s t hi hstart h
  rcases exec_cases hi h with ⟨-, rfl⟩ | ⟨-, -, -, rfl⟩ | ⟨-, rfl⟩
  · exact ⟨rfl, rfl⟩
  · exact ⟨rfl, rfl⟩
  · have hs := commandRule_shape hstart s
    have hfault : (commandRule i s).fault = s.fault := (congrArg State.fault hs :)
    refine ⟨(congrArg State.trace hs :), ?_⟩
    rw [← hfault]
    exact hs

end Sys2Proof.Machine

/-! SUPPORT. CLEAR_DISPLAY and REFRESH as whole transactions: what they leave when their calls succeed, and when one
fails (41_protocol_encoder.md R104, R108, R112 to R118). -/

namespace Sys2Proof.Machine

/-! ## A transaction under way -/

/-- `t` is `s` with the first `k` calls of a transaction of frame `f` made, and a further call next. -/
structure Sent (f : List BusEvent) (k : Nat) (s t : State) : Prop where
  cfg : t.cfg = s.cfg
  fb : t.fb = s.fb
  rot : t.rot = s.rot
  sel : t.sel = .asserted
  fault : t.fault = s.fault
  responses : t.responses = s.responses
  schedule : t.schedule = s.schedule
  callPos : t.callPos = k
  answers : t.answers = s.answers.drop k
  trace : t.trace = s.trace ++ f.take k
  frame : currentFrame t = f
  vcom : frameVcom t = s.vcom
  encoder : EncoderInv t
  active : HasCall t.pos

/-- The assert that succeeds sends the first event of the frame, which is that of `s` at the position opened (R101). -/
theorem sent_openTransaction {s : State} {b : Byte} {p : EncoderPos} (hp : p = .clearCommand ∨ p = .refreshCommand)
    (hb : nextAnswer s = .ok b) : Sent (currentFrame { s with pos := p }) 1 s (openTransaction p s) := by
  rw [openTransaction_ok hb]
  rcases hp with rfl | rfl <;> exact
    { cfg := rfl, fb := rfl, rot := rfl, sel := rfl, fault := rfl, responses := rfl, schedule := rfl, callPos := rfl,
      answers := by simp, trace := by simp [State.trace, currentFrame, clearFrame, refreshFrame], frame := rfl
      vcom := rfl, encoder := ⟨rfl, rfl⟩, active := by simp }

theorem Sent.continue {f : List BusEvent} {k n : Nat} {s t u : State} (h : Sent f k s t) (h' : Continues n t u) :
    Sent f (k + n) s u :=
  { cfg := h'.cfg.trans h.cfg, fb := h'.fb.trans h.fb, rot := h'.rot.trans h.rot, sel := h'.sel.trans h.sel
    fault := h'.fault.trans h.fault, responses := h'.responses.trans h.responses
    schedule := h'.schedule.trans h.schedule
    callPos := by rw [h'.callPos, h.callPos]
    answers := by rw [h'.answers, h.answers, List.drop_drop]
    trace := by rw [h'.trace, h.trace, h.frame, h.callPos, List.append_assoc, ← List.take_add]
    frame := h'.frame.trans h.frame, vcom := h'.vcom.trans h.vcom, encoder := h'.encoder, active := h'.active }

/-- The value of `vcom` at a position: flipped from the flip of the frame on. -/
theorem Sent.vcom_eq {f : List BusEvent} {k : Nat} {s t : State} (h : Sent f k s t) :
    t.vcom = if flippedAt t.pos then flipPolarity s.vcom else s.vcom := by
  rw [← h.vcom, frameVcom]
  cases flippedAt t.pos <;> simp [flipPolarity_flipPolarity]

/-! ## Which transaction it is -/

/-- The two frames differ in their first byte (R60, R61). -/
theorem refreshFrame_ne_clearFrame (c : Config) (v v' : Bit) (m : Memory) : refreshFrame c v m ≠ clearFrame v' := by
  have hbyte : ∀ v v' : Bit, writeCommandByte v ≠ clearCommandByte v' := by decide
  intro h
  have hfirst := congrArg (·[1]?) h
  simp only [refreshFrame, refreshBytes, clearFrame, List.cons_append, List.map_cons, List.getElem?_cons_succ,
    List.getElem?_cons_zero, Option.some.injEq, BusEvent.tx.injEq] at hfirst
  exact hbyte v v' hfirst

/-- A clear frame under way: its position is told by the number of calls made (R108). -/
theorem pos_of_clearFrame {t : State} {v : Bit} (hi : EncoderInv t) (hp : HasCall t.pos)
    (hf : currentFrame t = clearFrame v) :
    (t.pos = .clearCommand ∧ t.callPos = 1) ∨ (t.pos = .clearTrailer ∧ t.callPos = 2) ∨
    (t.pos = .clearDeassert ∧ t.callPos = 3) := by
  unfold EncoderInv at hi
  cases hpos : t.pos <;> rw [hpos] at hi hp
  case idle => exact absurd rfl hp.1
  case stopped => exact absurd rfl hp.2
  case clearCommand => exact .inl ⟨rfl, hi.2⟩
  case clearTrailer => exact .inr (.inl ⟨rfl, hi.2⟩)
  case clearDeassert => exact .inr (.inr ⟨rfl, hi.2⟩)
  all_goals
    rw [currentFrame, hpos] at hf
    exact absurd hf (refreshFrame_ne_clearFrame _ _ _ _)

/-- A refresh frame under way: it has flipped `vcom` once two calls are made (R113). -/
theorem pos_of_refreshFrame {t : State} {c : Config} {v : Bit} {m : Memory} (hi : EncoderInv t) (hp : HasCall t.pos)
    (hf : currentFrame t = refreshFrame c v m) :
    OutsideClear t.pos ∧ flippedAt t.pos = decide (2 ≤ t.callPos) := by
  unfold EncoderInv at hi
  cases hpos : t.pos <;> rw [hpos] at hi hp
  case idle => exact absurd rfl hp.1
  case stopped => exact absurd rfl hp.2
  case clearCommand | clearTrailer | clearDeassert =>
    rw [currentFrame, hpos] at hf
    exact absurd hf.symm (refreshFrame_ne_clearFrame _ _ _ _)
  case refreshCommand => simp [OutsideClear, flippedAt, hi.2]
  case firstAddress => simp [OutsideClear, flippedAt, hi.2]
  case data =>
    obtain ⟨-, y, j, -, -, -, -, hcall⟩ := hi
    exact ⟨by simp [OutsideClear], (decide_eq_true (by omega)).symm⟩
  case lineTrailer =>
    obtain ⟨-, y, -, -, -, hcall⟩ := hi
    exact ⟨by simp [OutsideClear], (decide_eq_true (by omega)).symm⟩
  case lineAddress =>
    obtain ⟨-, y, -, -, -, hcall⟩ := hi
    exact ⟨by simp [OutsideClear], (decide_eq_true (by omega)).symm⟩
  case finalTrailer | refreshDeassert =>
    obtain ⟨-, -, -, hcall⟩ := hi
    exact ⟨by simp [OutsideClear], (decide_eq_true (by omega)).symm⟩

/-! ## A transaction that ends -/

/-- `t` is `s` with one whole transaction of frame `f` made: every call sent, `vcom` flipped once, `Done`. -/
structure Completes (f : List BusEvent) (s t : State) : Prop where
  cfg : t.cfg = s.cfg
  rot : t.rot = s.rot
  fault : t.fault = s.fault
  schedule : t.schedule = s.schedule
  sel : t.sel = .deasserted
  pos : t.pos = .idle
  vcom : t.vcom = flipPolarity s.vcom
  trace : t.trace = s.trace ++ f
  responses : t.responses = s.responses ++ [.done]
  answers : t.answers = s.answers.drop f.length

/-- The deassert that succeeds completes the frame (R103). -/
theorem completes_of_sent {f : List BusEvent} {k : Nat} {s t : State} {b : Byte} (h : Sent f k s t)
    (hb : nextAnswer t = .ok b) (hp : t.pos = .clearDeassert ∨ t.pos = .refreshDeassert) :
    Completes f s (encoderStep t) := by
  obtain ⟨m, hs, -⟩ := encoderStep_deassert hb hp
  have htake := (currentFrame_deassert h.encoder hp).2
  rw [h.frame, h.callPos] at htake
  have hlen : f.length = k + 1 := by
    have := congrArg List.length htake
    simp only [List.length_append, List.length_take, List.length_singleton] at this
    omega
  have hflip : flippedAt t.pos = true := by rcases hp with hp | hp <;> rw [hp] <;> rfl
  exact
    { cfg := by rw [hs]; exact h.cfg
      rot := by rw [hs]; exact h.rot
      fault := by rw [hs]; exact h.fault
      schedule := by rw [hs]; exact h.schedule
      sel := by rw [hs]
      pos := by rw [hs]
      vcom := by rw [hs]; exact h.vcom_eq.trans (if_pos hflip)
      trace := by rw [encoderStep_deassert_trace hb hp, h.trace, List.append_assoc, htake]
      responses := by rw [hs]; exact congrArg (· ++ [Response.done]) h.responses
      answers := by rw [hs, hlen]; simp [h.answers] }

/-- A transaction whose calls succeed: its last call is the deassert of the state all the others left. -/
theorem transaction_completes {s : State} {n : Nat} {p : EncoderPos} (hp : p = .clearCommand ∨ p = .refreshCommand)
    (hr : Ready s) (ha : CallsSucceed (n + 2) s) (hn : (currentFrame { s with pos := p }).length = n + 2) :
    ∃ t b, Sent (currentFrame { s with pos := p }) (n + 1) s t ∧ nextAnswer t = .ok b ∧
      (t.pos = .clearDeassert ∨ t.pos = .refreshDeassert) ∧ runCalls (n + 1) (openTransaction p s) = encoderStep t := by
  obtain ⟨hfault, hcfg, -⟩ := hr
  obtain ⟨b, hb⟩ := nextAnswer_of_succeed ha
  have h := sent_openTransaction hp hb
  obtain ⟨t, c, hcont, hc, hd, hrun⟩ := runCalls_toLast (by rw [h.cfg]; exact hcfg) h.encoder (h.fault.trans hfault)
    h.active (succeed_tail ha (by rw [h.answers, List.drop_one])) (by rw [h.callPos, h.frame]; omega)
  exact ⟨t, c, Nat.add_comm 1 n ▸ h.continue hcont, hc, hd, hrun⟩

/-! ## A transaction that stops -/

/-- A transaction whose call `k` is the first to fail: that call is `failCall` of the state the calls before left. -/
theorem transaction_fails {s : State} {k n : Nat} {p : EncoderPos} (hp : p = .clearCommand ∨ p = .refreshCommand)
    (hr : Ready s) (ha : FailsAt k s) (hk : k ≤ n) (hn : (currentFrame { s with pos := p }).length = n + 1) :
    ∃ t, runCalls n (openTransaction p s) = failCall t ∧
      (k = 0 ∧ t = { s with callPos := 0 } ∨ 0 < k ∧ Sent (currentFrame { s with pos := p }) k s t) := by
  obtain ⟨hfault, hcfg, -⟩ := hr
  cases k with
  | zero =>
    refine ⟨{ s with callPos := 0 }, ?_, .inl ⟨rfl, rfl⟩⟩
    rw [openTransaction_failed (nextAnswer_of_failsAt_zero ha), runCalls_faulted (failCall_faulted _)]
  | succ k =>
    obtain ⟨b, hb⟩ := nextAnswer_of_succeed ha.1
    have h := sent_openTransaction hp hb
    obtain ⟨t, hcont, hrun⟩ := runCalls_failed (n := n) (by rw [h.cfg]; exact hcfg) h.encoder (h.fault.trans hfault)
      h.active (failsAt_tail ha (by rw [h.answers, List.drop_one])) (by rw [h.callPos, h.frame]; omega) (by omega)
    exact ⟨t, hrun, .inr ⟨Nat.succ_pos k, Nat.add_comm 1 k ▸ h.continue hcont⟩⟩

/-- `t` is `s` with a transaction of frame `f` stopped at its call `k`: the calls before it sent, TransportFault(k),
everything else frozen (R104). -/
structure StopsAt (f : List BusEvent) (k : Nat) (s t : State) : Prop where
  fault : t.fault = .transportFault k
  trace : t.trace = s.trace ++ f.take k
  sel : t.sel = if k = 0 then .deasserted else .asserted
  responses : t.responses = s.responses ++ [.fault 3]
  fb : t.fb = s.fb
  rot : t.rot = s.rot
  cfg : t.cfg = s.cfg
  pos : t.pos = .stopped
  answers : t.answers = s.answers.drop (k + 1)

theorem stopsAt_failCall {f : List BusEvent} {k : Nat} {s t : State} (hr : Ready s)
    (h : k = 0 ∧ t = { s with callPos := 0 } ∨ 0 < k ∧ Sent f k s t) : StopsAt f k s (failCall t) := by
  obtain ⟨hfault, -, hsel⟩ := hr
  rcases h with ⟨rfl, rfl⟩ | ⟨hk, h⟩
  · exact
      { fault := by simp [hfault], trace := by simp [State.trace], sel := by simpa using hsel, responses := rfl
        fb := rfl, rot := rfl, cfg := rfl, pos := rfl, answers := by simp }
  · have hk : k ≠ 0 := by omega
    exact
      { fault := by simp [h.fault, hfault, h.callPos], trace := h.trace, sel := by simp [h.sel, hk]
        responses := by simp [h.responses], fb := h.fb, rot := h.rot, cfg := h.cfg, pos := rfl
        answers := by simp [h.answers] }

/-! ## CLEAR_DISPLAY -/

/-- The positions of a clear, and those where no call is next. -/
def InsideClear (p : EncoderPos) : Prop :=
  p = .clearCommand ∨ p = .clearTrailer ∨ p = .clearDeassert ∨ ¬ HasCall p

/-- A call of a clear keeps the loop variables of R22, whatever the transport answers. -/
theorem encoderStep_insideClear {s : State} (h : InsideClear s.pos) :
    (encoderStep s).byteIndex = s.byteIndex ∧ (encoderStep s).prevLine = s.prevLine ∧
    InsideClear (encoderStep s).pos := by
  by_cases hp : HasCall s.pos
  · rcases nextAnswer_cases s with ⟨b, hb⟩ | hf
    · rcases h with h | h | h | h
      · rw [encoderStep_sent hb (by rw [h]; rfl), afterTx_clearCommand (s := recordCall _ (useAnswer s)) h]
        exact ⟨rfl, rfl, .inr (.inl rfl)⟩
      · rw [encoderStep_sent hb (by rw [h]; rfl), afterTx_clearTrailer (s := recordCall _ (useAnswer s)) h]
        exact ⟨rfl, rfl, .inr (.inr (.inl rfl))⟩
      · obtain ⟨m, hs, -⟩ := encoderStep_deassert hb (.inl h)
        rw [hs]
        exact ⟨rfl, rfl, .inr (.inr (.inr (by simp)))⟩
      · exact absurd hp h
    · rw [encoderStep_failed hf hp]
      exact ⟨rfl, rfl, .inr (.inr (.inr (by simp)))⟩
  · rw [encoderStep_none hp]
    exact ⟨rfl, rfl, h⟩

theorem runCalls_insideClear {s : State} (h : InsideClear s.pos) (n : Nat) :
    (runCalls n s).byteIndex = s.byteIndex ∧ (runCalls n s).prevLine = s.prevLine := by
  induction n generalizing s with
  | zero => exact ⟨rfl, rfl⟩
  | succ n ih =>
    obtain ⟨hbyte, hline, hp⟩ := encoderStep_insideClear h
    by_cases hf : s.fault = .noFault
    · rw [runCalls_succ hf, (ih hp).1, (ih hp).2, hbyte, hline]
      exact ⟨rfl, rfl⟩
    · rw [runCalls_faulted hf]
      exact ⟨rfl, rfl⟩

theorem clearDisplayRule_loopVars (s : State) :
    (clearDisplayRule s).byteIndex = s.byteIndex ∧ (clearDisplayRule s).prevLine = s.prevLine := by
  rw [clearDisplayRule, startClear]
  rcases nextAnswer_cases s with ⟨b, hb⟩ | hf
  · rw [openTransaction_ok hb]
    exact runCalls_insideClear (.inl rfl) 3
  · rw [openTransaction_failed hf]
    exact runCalls_insideClear (.inr (.inr (.inr (by simp)))) 3

/-- A clear whose calls succeed, with the buffer filled at its end if the parameter says so (R108, D12). -/
theorem clearDisplayRule_completes {s : State} (hr : Ready s) (ha : CallsSucceed 4 s) :
    Completes (clearFrame s.vcom) s (clearDisplayRule s) ∧
    (clearDisplayRule s).fb =
      if s.cfg.clearDisplayClearsBuffer = true then fillBlank (bufferBytes s.cfg) s.fb else s.fb := by
  obtain ⟨t, b, h, hb, hd, hrun⟩ := transaction_completes (n := 2) (.inl rfl) hr ha rfl
  have hpos : t.pos = .clearDeassert := by
    rcases pos_of_clearFrame h.encoder h.active h.frame with ⟨hp, -⟩ | ⟨hp, -⟩ | ⟨hp, -⟩
    · simp [hp] at hd
    · simp [hp] at hd
    · exact hp
  obtain ⟨m, hs, hm⟩ := encoderStep_deassert hb hd
  have hrule : clearDisplayRule s = encoderStep t := hrun
  rw [hrule]
  refine ⟨completes_of_sent h hb hd, ?_⟩
  rw [hs]
  show m = _
  rw [hm, h.cfg, h.fb]
  simp only [hpos, true_and]

/-- Settles O31: a clear completes its frame, and its calls write neither the loop variables nor, but for the fill, the
buffer. -/
theorem clearDisplaySendsTheClearFrame : Obligations.ClearDisplaySendsTheClearFrame := by
  intro s hr hb ha
  obtain ⟨h, hfb⟩ := clearDisplayRule_completes hr ha
  obtain ⟨hbyte, hline⟩ := clearDisplayRule_loopVars s
  refine ⟨_, exec_ready (i := .clearDisplay) rfl hr, h.trace, h.vcom, h.sel, h.pos, h.fault.trans hr.1, h.responses,
    fun a => ?_, ?_⟩
  · rw [show (commandRule .clearDisplay s).fb = _ from hfb]
    cases hc : s.cfg.clearDisplayClearsBuffer
    · simp
    · simp only [if_true, true_and]
      exact readByte_fillBlank hb _ _
  · simp only [commandRule, h.cfg, h.rot, h.sel.trans hr.2.2.symm, h.fault, hbyte, hline, h.schedule]

theorem Completes.ready {f : List BusEvent} {s t : State} (h : Completes f s t) (hr : Ready s) : Ready t :=
  ⟨h.fault.trans hr.1, by rw [h.cfg]; exact hr.2.1, h.sel⟩

/-- The calls after a transaction succeed if they did before it. -/
theorem Completes.succeed {f : List BusEvent} {s t : State} {n : Nat} (h : Completes f s t)
    (ha : CallsSucceed (f.length + n) s) : CallsSucceed n t := by
  intro a hm
  rw [h.answers] at hm
  refine ha a ?_
  rw [List.take_add]
  exact List.mem_append_right _ hm

/-- Settles O32: the second clear starts from the flipped polarity. -/
theorem twoClearsAlternateThePolarity : Obligations.TwoClearsAlternateThePolarity := by
  intro s hr hv ha
  have h := (clearDisplayRule_completes hr (succeed_mono ha (by omega))).1
  have h' := (clearDisplayRule_completes (h.ready hr) (h.succeed (n := 4) ha)).1
  have hvt : (clearDisplayRule s).vcom = 1#1 := by rw [h.vcom, hv]; rfl
  refine ⟨_, _, exec_ready (i := .clearDisplay) rfl hr, exec_ready (i := .clearDisplay) rfl (h.ready hr), hvt, ?_, ?_⟩
  · exact h'.vcom.trans (by rw [hvt]; rfl)
  · refine h'.trace.trans ?_
    rw [h.trace, hvt, hv, List.append_assoc]
    rfl

/-- Settles O33: the clear stops at the call that fails, which finds `vcom` flipped only after the trailer. -/
theorem clearDisplayStopsAtTheFailingCall : Obligations.ClearDisplayStopsAtTheFailingCall := by
  intro s k hr hk ha
  obtain ⟨t, hrun, ht⟩ := transaction_fails (n := 3) (p := .clearCommand) (.inl rfl) hr ha (by omega) rfl
  have hrule : clearDisplayRule s = failCall t := hrun
  have h := stopsAt_failCall hr ht
  have hvcom : t.vcom = if k = 3 then flipPolarity s.vcom else s.vcom := by
    rcases ht with ⟨rfl, rfl⟩ | ⟨-, ht⟩
    · rfl
    · rw [ht.vcom_eq, ← ht.callPos]
      rcases pos_of_clearFrame ht.encoder ht.active ht.frame with ⟨hp, hcall⟩ | ⟨hp, hcall⟩ | ⟨hp, hcall⟩ <;>
        rw [hp, hcall] <;> rfl
  obtain ⟨hbyte, hline⟩ := clearDisplayRule_loopVars s
  rw [hrule] at hbyte hline
  refine ⟨failCall t, ?_, h.fault, h.trace, h.sel, hvcom, h.responses, h.fb, h.rot, h.cfg, hbyte, hline, h.answers⟩
  rw [exec_ready rfl hr, commandRule, hrule]

/-! ## REFRESH -/

/-- The calls of a refresh are its bytes, the assert and the deassert (R118). -/
theorem refreshCalls_eq (c : Config) : 4 + nativeHeight c * (bytesPerLine c + 2) = refreshTxCount c + 2 := by
  unfold refreshTxCount
  omega

/-- A refresh whose calls succeed; the loop variables end where R115 leaves them. -/
theorem refreshRule_completes {s : State} (hr : Ready s)
    (ha : CallsSucceed (4 + nativeHeight s.cfg * (bytesPerLine s.cfg + 2)) s) :
    Completes (refreshFrame s.cfg s.vcom s.fb) s (refreshRule s) ∧
    (refreshRule s).byteIndex = bufferBytes s.cfg ∧ (refreshRule s).prevLine = nativeHeight s.cfg + 1 := by
  rw [refreshCalls_eq] at ha
  obtain ⟨t, b, h, hb, hd, hrun⟩ := transaction_completes (p := .refreshCommand) (.inr rfl) hr ha
    (length_refreshFrame _ _ _)
  have hpos : t.pos = .refreshDeassert :=
    hd.resolve_left (pos_of_refreshFrame h.encoder h.active h.frame).1.2.2
  have hloop := h.encoder
  rw [EncoderInv, hpos] at hloop
  obtain ⟨-, hbyte, hline, -⟩ := hloop
  obtain ⟨m, hs, -⟩ := encoderStep_deassert hb hd
  have hrule : refreshRule s = encoderStep t := hrun
  rw [hrule]
  refine ⟨completes_of_sent h hb hd, ?_, ?_⟩
  · rw [hs, ← h.cfg]; exact hbyte
  · rw [hs, ← h.cfg]; exact hline

/-- Settles O34: a refresh completes its frame, and the loop variables are those of its last call. -/
theorem refreshSendsTheRefreshFrame : Obligations.RefreshSendsTheRefreshFrame := by
  intro s hr ha
  obtain ⟨h, hbyte, hline⟩ := refreshRule_completes hr ha
  refine ⟨_, exec_ready (i := .refresh) rfl hr, h.trace, h.vcom, h.sel, h.pos, h.fault.trans hr.1, h.responses, hbyte,
    hline, fun a => ?_, ?_⟩
  · exact congrArg (readByte · a) (refreshRule_fb s)
  · simp only [commandRule, h.cfg, h.rot, h.sel.trans hr.2.2.symm, h.fault, refreshRule_fb, h.schedule]

/-- The select calls are what a refresh makes besides its bytes. -/
theorem filter_refreshFrame (c : Config) (v : Bit) (m : Memory) :
    (refreshFrame c v m).filter (fun e => e ≠ .assertSelect ∧ e ≠ .deassertSelect) = (refreshBytes c v m).map .tx := by
  have htx : ((refreshBytes c v m).map BusEvent.tx).filter (fun e => e ≠ .assertSelect ∧ e ≠ .deassertSelect) =
      (refreshBytes c v m).map .tx := by
    rw [List.filter_eq_self]
    intro e he
    obtain ⟨b, -, rfl⟩ := List.mem_map.1 he
    rfl
  rw [refreshFrame, List.filter_append, List.filter_cons_of_neg (by decide), htx]
  simp

/-- Settles O35: the length of the frame is that of its bytes and the two select calls. -/
theorem refreshLengthIsTheClosedForm : Obligations.RefreshLengthIsTheClosedForm := by
  intro s hr ha
  have h := (refreshRule_completes hr ha).1
  have hbytes : ((refreshRule s).trace.drop s.trace.length).filter
      (fun e => e ≠ .assertSelect ∧ e ≠ .deassertSelect) = (refreshBytes s.cfg s.vcom s.fb).map .tx := by
    rw [h.trace, List.drop_left, filter_refreshFrame]
  refine ⟨refreshRule s, exec_ready rfl hr, ?_, ?_, fun hw hh => ?_⟩
  · rw [h.trace, List.length_append, length_refreshFrame, refreshCalls_eq]
  · rw [hbytes, List.length_map, length_refreshBytes, refreshTxCount]
  · rw [hbytes, List.length_map, length_refreshBytes, refreshTxCount, bytesPerLine, nativeWidth, nativeHeight, hw, hh]
    rfl

/-- The address of line `y` in the frame of a refresh (R117). -/
theorem refreshFrame_address (c : Config) (v : Bit) (m : Memory) {y : Nat} (hy : y < nativeHeight c) :
    (refreshFrame c v m)[1 + (1 + y * (bytesPerLine c + 2))]? = some (.tx (lineByte (y + 1))) := by
  have hlt : 1 + y * (bytesPerLine c + 2) < refreshTxCount c := by
    have := Nat.mul_le_mul_right (bytesPerLine c + 2) (Nat.succ_le_of_lt hy)
    rw [Nat.succ_mul] at this
    unfold refreshTxCount
    omega
  have hline := refreshBytes_line c v m hy (Nat.succ_pos (bytesPerLine c + 1))
  rw [Nat.add_comm 1 (1 + _), refreshFrame_tx _ _ _ _ hlt]
  rw [Nat.add_zero] at hline
  rw [hline, lineBytes_address]
  rfl

/-- An event of the frame, in the trace that the frame was appended to. -/
theorem Completes.getElem? {f : List BusEvent} {s t : State} (h : Completes f s t) (i : Nat) :
    t.trace[s.trace.length + i]? = f[i]? := by
  rw [h.trace, List.getElem?_append_right (Nat.le_add_right ..), Nat.add_sub_cancel_left]

/-- A line number fits its byte (R8, R63). -/
theorem toNat_lineByte {c : Config} (hc : configOK c = true) {l : Nat} (hl : l ≤ nativeHeight c) :
    (lineByte l).toNat = l := by
  obtain ⟨-, -, -, -, hH⟩ := configOK_iff.1 hc
  rw [lineByte, BitVec.toNat_ofNat, Nat.mod_eq_of_lt (by omega)]

/-- Settles O36: that byte is byte 0 of line `L - 1` of the frame. -/
theorem refreshAddressesEveryLineInOrder : Obligations.RefreshAddressesEveryLineInOrder := by
  intro s l hr ha hl hH
  have h := (refreshRule_completes hr ha).1
  refine ⟨refreshRule s, lineByte l, exec_ready rfl hr, ?_, toNat_lineByte hr.2.1 hH⟩
  have hline := refreshFrame_address s.cfg s.vcom s.fb (y := l - 1) (by omega)
  rw [Nat.sub_add_cancel hl] at hline
  rw [Nat.add_assoc, h.getElem?]
  exact hline

/-- Settles O37: the byte sent for that place is the buffer byte the pixel's address names, whose bit was written. -/
theorem refreshSendsThePixelWritten : Obligations.RefreshSendsThePixelWritten := by
  intro s v x y x' y' hr hb ha htr hx hy
  have hc := hr.2.1
  have hp : InRange s.cfg ((x' : Int), (y' : Int)) := inRange_of_lt hx hy
  have hset := exec_setPixel_inRange (x := x) (y := y) v hr (by rw [htr]; exact hp)
  rw [htr] at hset
  have h := (refreshRule_completes (s := respond .done (setFbBit v ((x' : Int), (y' : Int)) s)) hr ha).1
  have hbit := fbBit_setFbBit hb hc hp hp v
  rw [if_pos rfl, fbBit, setFbBit_cfg, byteIndexOf_line hc, bitPositionOf_natCast, bitOf] at hbit
  refine ⟨_, _, readByte (setFbBit v ((x' : Int), (y' : Int)) s).fb (y' * bytesPerLine s.cfg + x' / 8), hset,
    exec_ready (i := .refresh) rfl hr, ?_, ?_⟩
  · have hw := width_eq hc
    have hdata := refreshFrame_data s.cfg s.vcom (setFbBit v ((x' : Int), (y' : Int)) s).fb hy (j := x' / 8) (by omega)
    have hidx : s.trace.length + 1 + (1 + y' * (bytesPerLine s.cfg + 2)) + (1 + x' / 8) =
        s.trace.length + (2 + y' * (bytesPerLine s.cfg + 2) + (1 + x' / 8)) := by omega
    rw [hidx]
    exact (h.getElem? _).trans hdata
  · have hbool : ∀ (b : Bool) (v : Bit), BitVec.ofBool b = v → b = (v == 1#1) := by decide
    exact hbool _ _ hbit

/-- A refresh frame from its second byte on, which the polarity does not reach (R117). -/
def refreshTail (c : Config) (m : Memory) : List BusEvent :=
  ((List.range (nativeHeight c)).flatMap (lineBytes c m) ++ [trailerByte]).map .tx ++ [.deassertSelect]

theorem refreshFrame_eq_tail (c : Config) (v : Bit) (m : Memory) :
    refreshFrame c v m = .assertSelect :: .tx (writeCommandByte v) :: refreshTail c m := rfl

/-- Settles O38: the second refresh finds the same buffer and the flipped polarity. -/
theorem twoRefreshesDifferInTheCommandByte : Obligations.TwoRefreshesDifferInTheCommandByte := by
  intro s hr ha
  have hbyte : ∀ v : Bit, (writeCommandByte v = 0x01#8 ∧ writeCommandByte (flipPolarity v) = 0x03#8) ∨
      (writeCommandByte v = 0x03#8 ∧ writeCommandByte (flipPolarity v) = 0x01#8) := by decide
  rw [Nat.two_mul] at ha
  have h := (refreshRule_completes hr (succeed_mono ha (Nat.le_add_left _ _))).1
  have hnext : CallsSucceed (4 + nativeHeight s.cfg * (bytesPerLine s.cfg + 2)) (refreshRule s) :=
    h.succeed (by rw [length_refreshFrame, ← refreshCalls_eq]; exact ha)
  rw [← h.cfg] at hnext
  have h' := (refreshRule_completes (h.ready hr) hnext).1
  refine ⟨_, _, writeCommandByte s.vcom, writeCommandByte (flipPolarity s.vcom), refreshTail s.cfg s.fb,
    exec_ready (i := .refresh) rfl hr, exec_ready (i := .refresh) rfl (h.ready hr), h.trace, ?_, hbyte _⟩
  refine h'.trace.trans ?_
  rw [refreshFrame_eq_tail, h.cfg, h.vcom, refreshRule_fb]
  rfl

/-- Settles O40: the refresh stops at the call that fails, which finds `vcom` flipped after the command byte. -/
theorem refreshStopsAtTheFailingCall : Obligations.RefreshStopsAtTheFailingCall := by
  intro s k hr hk ha
  rw [refreshCalls_eq] at hk
  obtain ⟨t, hrun, ht⟩ := transaction_fails (n := refreshTxCount s.cfg + 1) (p := .refreshCommand) (.inr rfl) hr ha
    (by omega) (length_refreshFrame _ _ _)
  have hrule : refreshRule s = failCall t := hrun
  have h := stopsAt_failCall hr ht
  have hvcom : t.vcom = if 2 ≤ k then flipPolarity s.vcom else s.vcom := by
    rcases ht with ⟨rfl, rfl⟩ | ⟨-, ht⟩
    · rfl
    · rw [ht.vcom_eq, (pos_of_refreshFrame ht.encoder ht.active ht.frame).2, ht.callPos]
      simp
  refine ⟨failCall t, ?_, h.fault, h.trace, h.sel, hvcom, h.responses, h.fb, h.rot, h.cfg, h.answers⟩
  rw [exec_ready rfl hr, commandRule, hrule]

end Sys2Proof.Machine

/-! SUPPORT. The wire items (30_encoding.md R60 to R65): where each stands, what its call leaves, and that it occurs
nowhere else. -/

namespace Sys2Proof.Machine

/-! ## Where an item stands -/

section
variable {s : State}

theorem wireItemAt_cmdWrite {v : Bit} :
    wireItemAt s = some (.wireCmdWrite v) ↔ s.pos = .refreshCommand ∧ v = s.vcom := by
  unfold wireItemAt
  cases hp : s.pos <;> simp [eq_comm]

theorem wireItemAt_cmdClear {v : Bit} :
    wireItemAt s = some (.wireCmdClear v) ↔ s.pos = .clearCommand ∧ v = s.vcom := by
  unfold wireItemAt
  cases hp : s.pos <;> simp [eq_comm]

theorem wireItemAt_lineAddr {l : Byte} : wireItemAt s = some (.wireLineAddr l) ↔
    (s.pos = .firstAddress ∧ l = lineByte 1) ∨ (s.pos = .lineAddress ∧ l = lineByte (currentLine s)) := by
  unfold wireItemAt
  cases hp : s.pos <;> simp [eq_comm]

theorem wireItemAt_data {d : Byte} : wireItemAt s = some (.wireData d) ↔
    s.pos = .data ∧ s.byteIndex < bufferBytes s.cfg ∧ d = readByte s.fb s.byteIndex := by
  unfold wireItemAt
  cases hp : s.pos <;> simp [eq_comm]

theorem wireItemAt_trailer : wireItemAt s = some .wireTrailer ↔
    s.pos = .clearTrailer ∨ s.pos = .lineTrailer ∨ s.pos = .finalTrailer := by
  unfold wireItemAt
  cases hp : s.pos <;> simp

/-! ## What its call leaves -/

theorem hasCall_of_txPos {p : EncoderPos} (h : txPos p = true) : HasCall p := by
  constructor <;> rintro rfl <;> cases h

/-- A wire item in its place whose call succeeds: the byte recorded, then the updates after it (R100, R122). -/
theorem exec_wireItemAt_sent {i : Instr} {b : Byte} (hm : MidTransaction s) (hw : wireItemAt s = some i)
    (hi : encode i = .wire b) (ha : CallsSucceed 1 s) :
    exec i s = .next (afterTx (recordCall (.tx b) (useAnswer s))) := by
  obtain ⟨c, hc⟩ := nextAnswer_of_succeed ha
  obtain ⟨htx, henc⟩ := wireItemAt_encode hw
  rw [exec_wireItemAt hm hw, encoderStep_sent hc htx, Encoded.wire.inj (hi.symm.trans henc)]

/-- The byte sent is the last event of the trace after it. -/
theorem trace_sent (b : Byte) : (afterTx (recordCall (.tx b) (useAnswer s))).trace = s.trace ++ [.tx b] := by
  simp

/-- Only the command byte of a refresh and the trailer of a clear flip `vcom` (R108, R113). -/
theorem afterTx_vcom (h₁ : s.pos ≠ .refreshCommand) (h₂ : s.pos ≠ .clearTrailer) : (afterTx s).vcom = s.vcom := by
  cases hp : s.pos
  case refreshCommand => exact absurd hp h₁
  case clearTrailer => exact absurd hp h₂
  case data => rw [afterTx_data hp]; split <;> rfl
  case lineTrailer => rw [afterTx_lineTrailer hp]; split <;> rfl
  all_goals simp [afterTx, hp, nextTurn, loopHead]

theorem encoderStep_vcom {s : State} (htx : txPos s.pos = true) (h₁ : s.pos ≠ .refreshCommand)
    (h₂ : s.pos ≠ .clearTrailer) : (encoderStep s).vcom = s.vcom := by
  rcases nextAnswer_cases s with ⟨b, hb⟩ | hf
  · rw [encoderStep_sent hb htx]
    exact afterTx_vcom (s := recordCall _ (useAnswer s)) h₁ h₂
  · rw [encoderStep_failed hf (hasCall_of_txPos htx)]
    rfl

end

/-! ## The command bytes -/

/-- A word that encodes a command decodes to it. -/
theorem decodeCommand_of_encode {i : Instr} {w : CmdWord} (hi : i.isCommand = true) (h : encode i = .command w) :
    decodeCommand w = .ok i := by
  have hdec := decodeOfEncodeIsTheInstruction i (wellFormed_of_isCommand hi)
  rwa [h] at hdec

/-- In a block that can execute it, a transaction command taken call by call makes its call k = 0 (R122). -/
theorem presentByCalls_ready {s : State} {i : Instr} {w : CmdWord} (hr : Ready s) (hi : i.isCommand = true)
    (h : encode i = .command w) : presentByCalls w s = .next (byCallsRule i s) := by
  rw [presentByCalls_ok (decodeCommand_of_encode hi h), execByCalls_eq hi, dispatch_ready hr]

/-- Settles O45: in its place the item is the call that sends the byte, after which `vcom` flips; elsewhere it is
refused; and it is byte 0 of the frame a refresh completes. -/
theorem writeCommandByteStartsARefresh : Obligations.WriteCommandByteStartsARefresh := by
  refine ⟨⟨rfl, rfl, by decide⟩, fun s hm hp ha => ?_, fun s t v h => ?_, fun s hr ha => ?_⟩
  · have hexec := exec_wireItemAt_sent hm (wireItemAt_cmdWrite.2 ⟨hp, rfl⟩) rfl ha
    have htrace := trace_sent (s := s) (writeCommandByte s.vcom)
    rw [afterTx_refreshCommand (s := recordCall _ (useAnswer s)) hp] at hexec htrace
    exact ⟨_, hexec, htrace, rfl, rfl, rfl, fun _ => rfl, rfl⟩
  · obtain ⟨-, hw, -⟩ := exec_wire_next rfl h
    exact wireItemAt_cmdWrite.1 hw
  · have hbyte : ∀ v : Bit, writeCommandByte v = if v = 0#1 then 0x01#8 else 0x03#8 := by decide
    refine ⟨refreshRule s, exec_ready rfl hr, ?_⟩
    rw [(refreshRule_completes hr ha).1.getElem?, ← hbyte]
    rfl

/-- Settles O44: the first step is the assert, the second the command byte's item, after which `vcom` flips; no other
item but the trailer of a clear flips it. -/
theorem refreshFlipsVcomRightAfterItsCommandByte : Obligations.RefreshFlipsVcomRightAfterItsCommandByte := by
  refine ⟨fun s w rest hr henc hs ha => ?_, fun s t i hw h h₁ h₂ => ?_⟩
  · obtain ⟨b, hb⟩ := nextAnswer_of_succeed ha
    have hfirst : step s = .next (startRefresh { s with schedule := .quiet :: rest }) := by
      rw [step_commandByCalls hs]
      exact presentByCalls_ready (s := { s with schedule := .quiet :: rest }) (i := .refresh) hr rfl henc
    obtain ⟨-, hpos, -, htrace, hrest, hsel, -, hans⟩ := startRefresh_ok (s := { s with schedule := .quiet :: rest }) hb
    have hvcom : (startRefresh { s with schedule := .quiet :: rest }).vcom = s.vcom := (congrArg State.vcom hrest :)
    have hfault : (startRefresh { s with schedule := .quiet :: rest }).fault = .noFault :=
      (congrArg State.fault hrest :).trans hr.1
    have hsched : (startRefresh { s with schedule := .quiet :: rest }).schedule = .quiet :: rest :=
      (congrArg State.schedule hrest :)
    have hans : CallsSucceed 1 (startRefresh { s with schedule := .quiet :: rest }) := succeed_tail ha hans
    have htrace : (startRefresh { s with schedule := .quiet :: rest }).trace = s.trace ++ [.assertSelect] := htrace
    generalize startRefresh { s with schedule := .quiet :: rest } = t at *
    have hmid : MidTransaction t := ⟨.inl hfault, hsel, by simp [hpos]⟩
    obtain ⟨u, hu, hutrace, huvcom, -, -, -, hurest⟩ :=
      writeCommandByteStartsARefresh.2.1 { t with schedule := rest } hmid hpos hans
    have hsecond : step t = .next u :=
      (stepRunsTheDecodedInstruction.2.1 t _ rest (.inl hsched) hmid (wireItemAt_cmdWrite.2 ⟨hpos, rfl⟩)).trans hu
    have hutrace : u.trace = t.trace ++ [.tx (0x01#8 ||| t.vcom.setWidth 8 <<< 1)] := hutrace
    have husel : u.sel = t.sel := (congrArg State.sel hurest :)
    refine ⟨t, u, hfirst, hsecond, htrace, hsel, hvcom, ?_, husel.trans hsel, by rw [huvcom, hvcom]⟩
    rw [hutrace, htrace, hvcom, List.append_assoc]
    rfl
  · obtain ⟨-, -, rfl⟩ := exec_wire_next (wireItemAt_isCommand hw) h
    exact encoderStep_vcom (wireItemAt_encode hw).1 h₁ h₂

/-- Settles O46: in its place the item is the call that sends the byte, with `vcom` kept until the trailer; elsewhere it
is refused; and it is byte 0 of the frame a clear completes. -/
theorem clearCommandByteStartsAClear : Obligations.ClearCommandByteStartsAClear := by
  refine ⟨⟨rfl, rfl, by decide⟩, fun s hm hp ha => ?_, fun s t v h => ?_, fun s hr ha => ?_⟩
  · have hexec := exec_wireItemAt_sent hm (wireItemAt_cmdClear.2 ⟨hp, rfl⟩) rfl ha
    have htrace := trace_sent (s := s) (clearCommandByte s.vcom)
    rw [afterTx_clearCommand (s := recordCall _ (useAnswer s)) hp] at hexec htrace
    exact ⟨_, hexec, htrace, rfl, rfl, rfl, fun _ => rfl, rfl⟩
  · obtain ⟨-, hw, -⟩ := exec_wire_next rfl h
    exact wireItemAt_cmdClear.1 hw
  · have hbyte : ∀ v : Bit, clearCommandByte v = if v = 0#1 then 0x04#8 else 0x06#8 := by decide
    have h := (clearDisplayRule_completes hr ha).1
    refine ⟨clearDisplayRule s, exec_ready rfl hr, h.vcom, ?_⟩
    rw [h.trace, ← hbyte]
    rfl

/-! ## The bytes of the lines -/

/-- Settles O47: an address is sent in two places, in each with the updates of R114 or R115; the invariant bounds the
line there by `H`, which fits a byte. -/
theorem lineAddressByteIsTheLineNumber : Obligations.LineAddressByteIsTheLineNumber := by
  refine ⟨fun s hm hp ha => ?_, fun s l hm hp ha hl => ?_, fun s t b hinv h => ?_⟩
  · have hexec := exec_wireItemAt_sent hm (wireItemAt_lineAddr.2 (.inl ⟨hp, rfl⟩)) rfl ha
    have htrace := trace_sent (s := s) (lineByte 1)
    rw [afterTx_firstAddress (s := recordCall _ (useAnswer s)) hp] at hexec htrace
    exact ⟨_, hexec, htrace, rfl, rfl, rfl, fun _ => rfl, rfl⟩
  · subst hl
    have hexec := exec_wireItemAt_sent hm (wireItemAt_lineAddr.2 (.inr ⟨hp, rfl⟩)) rfl ha
    have htrace := trace_sent (s := s) (lineByte (currentLine s))
    rw [afterTx_lineAddress (s := recordCall _ (useAnswer s)) hp] at hexec htrace
    exact ⟨_, hexec, htrace, rfl, rfl, rfl, fun _ => rfl, rfl⟩
  · obtain ⟨hm, hw, -⟩ := exec_wire_next rfl h
    have hc := hinv.active hm.2.1
    have hinv := hinv.encoder
    unfold EncoderInv at hinv
    rcases wireItemAt_lineAddr.1 hw with ⟨hp, rfl⟩ | ⟨hp, rfl⟩
    · exact ⟨le_rfl, height_pos hc, .inl ⟨hp, rfl⟩⟩
    · rw [hp] at hinv
      obtain ⟨-, y, hy, hidx, -⟩ := hinv
      have hline : currentLine s = y + 1 + 1 := by
        rw [currentLine, hidx, Nat.mul_div_cancel _ (bytesPerLine_pos hc)]
      have hbyte : (lineByte (currentLine s)).toNat = currentLine s := toNat_lineByte hc (by omega)
      exact ⟨by omega, by omega, .inr ⟨hp, hbyte⟩⟩

/-- Settles O48: the byte of the buffer is sent at its position alone, and the loop goes on as R115 says; its bits are
the eight pixels its index addresses. -/
theorem dataByteIsTheBufferByte : Obligations.DataByteIsTheBufferByte := by
  refine ⟨fun s hm hp hlt ha => ?_, fun s t d h => ?_, fun s k hc hlt hk => ?_, fun _ => rfl⟩
  · have hexec := exec_wireItemAt_sent hm (wireItemAt_data.2 ⟨hp, hlt, rfl⟩) rfl ha
    have htrace := trace_sent (s := s) (readByte s.fb s.byteIndex)
    have hafter := afterTx_data (s := recordCall (.tx (readByte s.fb s.byteIndex)) (useAnswer s)) hp
    by_cases hline : (s.byteIndex + 1) / bytesPerLine s.cfg + 1 = s.prevLine
    · rw [hafter.trans (if_neg (not_not.2 hline))] at hexec htrace
      exact ⟨_, hexec, htrace, fun h => absurd hline h, fun _ => ⟨rfl, rfl⟩, fun _ => rfl, rfl⟩
    · rw [hafter.trans (if_pos hline)] at hexec htrace
      exact ⟨_, hexec, htrace, fun _ => ⟨rfl, rfl⟩, fun h => absurd h hline, fun _ => rfl, rfl⟩
  · obtain ⟨-, hw, -⟩ := exec_wire_next rfl h
    exact wireItemAt_data.1 hw
  · refine ⟨inRange_of_lt (column_lt_width hc (Nat.mod_lt _ (bytesPerLine_pos hc)) hk) (line_lt_height hc hlt), ?_⟩
    rw [fbBit, byteIndexOf_column hc _ hk, bitPositionOf_column _ _ hk, bitOf]

/-- Settles O49: a trailer is sent in three places, each with its own updates. -/
theorem trailerByteEndsLinesAndFrames : Obligations.TrailerByteEndsLinesAndFrames := by
  refine ⟨fun s hm ha hp => ?_, fun s t h => ?_⟩
  · have hexec := exec_wireItemAt_sent hm (wireItemAt_trailer.2 hp) rfl ha
    have htrace := trace_sent (s := s) trailerByte
    rcases hp with hp | hp | hp
    · rw [afterTx_clearTrailer (s := recordCall _ (useAnswer s)) hp] at hexec htrace
      exact ⟨_, hexec, htrace, fun _ => ⟨rfl, rfl, rfl, rfl⟩, by simp [hp], by simp [hp], by simp [hp], fun _ => rfl, rfl⟩
    · have hafter := afterTx_lineTrailer (s := recordCall (.tx trailerByte) (useAnswer s)) hp
      by_cases hline : (s.byteIndex + 1) / bytesPerLine s.cfg + 1 ≤ nativeHeight s.cfg
      · rw [hafter.trans (if_pos hline)] at hexec htrace
        exact ⟨_, hexec, htrace, by simp [hp], fun _ _ => ⟨rfl, rfl, rfl, rfl⟩, fun _ h => absurd hline (Nat.not_le.2 h),
          by simp [hp], fun _ => rfl, rfl⟩
      · rw [hafter.trans (if_neg hline)] at hexec htrace
        exact ⟨_, hexec, htrace, by simp [hp], fun _ h => absurd h hline, fun _ _ => ⟨rfl, rfl, rfl, rfl⟩, by simp [hp],
          fun _ => rfl, rfl⟩
    · rw [afterTx_finalTrailer (s := recordCall _ (useAnswer s)) hp] at hexec htrace
      exact ⟨_, hexec, htrace, by simp [hp], by simp [hp], by simp [hp], fun _ => ⟨rfl, rfl, rfl, rfl⟩, fun _ => rfl, rfl⟩
  · obtain ⟨-, hw, -⟩ := exec_wire_next rfl h
    exact wireItemAt_trailer.1 hw

/-! ## Failing and misplaced items -/

/-- Settles O50: the item in its place is the encoder's next call, and a call that fails is `failCall`. -/
theorem wireItemThatFailsFreezesTheState : Obligations.WireItemThatFailsFreezesTheState := by
  intro s i hm hw ha
  have hfail := encoderStep_failed (nextAnswer_of_failsAt_zero ha) (hasCall_of_txPos (wireItemAt_encode hw).1)
  exact ⟨failCall s, (exec_wireItemAt hm hw).trans (by rw [hfail]), rfl, rfl, rfl, rfl⟩

/-- Settles O51: an item is sent only where it is the one at the encoder's position. -/
theorem wireItemOutOfPlaceIsRefused : Obligations.WireItemOutOfPlaceIsRefused := by
  intro s i hi hw
  obtain ⟨b, -, hexec⟩ := exec_wire hi
  rw [hexec, sendItem, if_neg fun h => hw h.2]

end Sys2Proof.Machine

/-! SUPPORT. A transaction command taken call by call (41_protocol_encoder.md R122), and the bytes the transport returns,
which nothing reads (R102). -/

namespace Sys2Proof.Machine

/-! ## Call by call -/

/-- A block that nothing arrives at, and whose transaction, if any, runs as a command's does: no fault, or the one of a
call that failed. -/
structure Unattended (s : State) : Prop where
  schedule : s.schedule = []
  config : configOK s.cfg = true
  encoder : EncoderInv s
  fault : s.fault = .noFault ∨ (s.pos = .stopped ∧ interrupted s = false)

/-- A step of such a block is one turn of `runCalls` (R122). -/
theorem Unattended.step_eq {s : State} (h : Unattended s) : step s = .next (runCalls 1 s) := by
  rw [step_nil h.schedule]
  rcases h.fault with hf | ⟨hp, hi⟩
  · rw [runCalls_succ hf, runCalls_zero]
    by_cases hp : HasCall s.pos
    · exact quietStep_running h.config h.encoder ⟨.inl hf, sel_of_hasCall h.encoder hp, hp.2⟩
    · rw [encoderStep_none hp]
      refine quietStep_idle (fun hm => hp ⟨fun hidle => ?_, hm.2.2⟩) (by simp [interrupted, hf])
      have henc := h.encoder
      rw [EncoderInv, hidle, hm.2.1] at henc
      cases henc
  · rw [runCalls_idle (by simp [hp])]
    exact quietStep_idle (fun hm => hm.2.2 hp) hi

theorem Unattended.afterCall {s : State} (h : Unattended s) (hf : s.fault = .noFault) :
    Unattended (encoderStep s) := by
  obtain ⟨hcfg, hsched, -⟩ := encoderStep_shape s
  refine ⟨hsched.trans h.schedule, by rw [hcfg]; exact h.config,
    encoderStep_encoderInv (fun _ => h.config) h.encoder, ?_⟩
  rcases encoderStep_fault s with he | ⟨-, he, hp⟩
  · exact .inl (he.trans hf)
  · exact .inr ⟨hp, by simp [interrupted, he]⟩

/-- Steps of such a block, one call each, are the calls of the command in a row. -/
theorem Unattended.run_eq {s : State} (h : Unattended s) (n : Nat) :
    Host.Core.run Sys2Proof.core n s = .next (runCalls n s) := by
  induction n generalizing s with
  | zero => exact run_zero s
  | succ n ih =>
    rw [run_step h.step_eq]
    by_cases hf : s.fault = .noFault
    · rw [runCalls_succ hf, runCalls_succ hf, runCalls_zero]
      exact ih (h.afterCall hf)
    · rw [runCalls_faulted hf, ih h, runCalls_faulted hf, runCalls_faulted hf]

theorem unattended_openTransaction {s : State} {p : EncoderPos} (hp : p = .clearCommand ∨ p = .refreshCommand)
    (hr : Ready s) (hs : s.schedule = []) : Unattended (openTransaction p s) := by
  obtain ⟨hf, hc, -⟩ := hr
  rcases nextAnswer_cases s with ⟨b, hb⟩ | hfail
  · have h := sent_openTransaction hp hb
    exact ⟨h.schedule.trans hs, by rw [h.cfg]; exact hc, h.encoder, .inl (h.fault.trans hf)⟩
  · rw [openTransaction_failed hfail]
    exact ⟨hs, hc, encoderInv_stopped rfl (failCall_faulted _), .inr ⟨rfl, by simp [interrupted, hf]⟩⟩

/-- The calls ahead all succeed, or one of them is the first to fail. -/
theorem succeed_or_fails (n : Nat) (s : State) : CallsSucceed n s ∨ ∃ k, k < n ∧ FailsAt k s := by
  induction n with
  | zero => exact .inl (by simp [CallsSucceed])
  | succ n ih =>
    rcases ih with h | ⟨k, hk, h⟩
    · by_cases hn : s.answers[n]? = some .failed
      · exact .inr ⟨n, Nat.lt_succ_self n, h, hn⟩
      · refine .inl fun a ha => ?_
        rw [List.take_add_one] at ha
        rcases List.mem_append.1 ha with ha | ha
        · exact h a ha
        · rintro rfl
          exact hn (Option.mem_toList.1 ha)
    · exact .inr ⟨k, by omega, h⟩

/-- After a clear no call is next, whatever the transport answered (R104, R108). -/
theorem clearDisplayRule_noCall {s : State} (hr : Ready s) : ¬ HasCall (clearDisplayRule s).pos := by
  rcases succeed_or_fails 4 s with ha | ⟨k, hk, ha⟩
  · simp [(clearDisplayRule_completes hr ha).1.pos]
  · obtain ⟨t, hrun, -⟩ := transaction_fails (n := 3) (p := .clearCommand) (.inl rfl) hr ha (by omega) rfl
    have hrule : clearDisplayRule s = failCall t := hrun
    simp [hrule]

/-- A transaction command presented call by call at an idle block, and the steps after it (R122). -/
theorem run_byCalls {s : State} {i : Instr} {w : CmdWord} {p : EncoderPos}
    (hp : p = .clearCommand ∨ p = .refreshCommand) (hr : Ready s) (hs : s.schedule = []) (hi : i.isCommand = true)
    (henc : encode i = .command w) (hrule : byCallsRule i s = openTransaction p s) (n : Nat) :
    Host.Core.run Sys2Proof.core (n + 1) { s with schedule := [.commandByCalls w] } =
      .next (runCalls n (openTransaction p s)) := by
  have hpresent : presentByCalls w { s with schedule := [] } = .next (openTransaction p s) := by
    rw [schedule_eta hs, presentByCalls_ready hr hi henc, hrule]
  have hfirst := (step_commandByCalls (s := { s with schedule := [.commandByCalls w] }) rfl).trans hpresent
  exact (run_step hfirst).trans ((unattended_openTransaction hp hr hs).run_eq n)

/-- Settles O43: the first step makes the call k = 0, each further step one more; a clear has no call left after its
four, so that the steps beyond them change nothing. -/
theorem callByCallEqualsTheAtomicCommand : Obligations.CallByCallEqualsTheAtomicCommand := by
  intro s i w hr hs hi henc
  rw [refreshCalls_eq]
  rcases eq_of_startsTransaction hi with rfl | rfl
  · have hsplit : refreshTxCount s.cfg + 1 = 3 + nativeHeight s.cfg * (bytesPerLine s.cfg + 2) := by
      unfold refreshTxCount
      omega
    refine (run_byCalls (.inl rfl) hr hs rfl henc rfl (refreshTxCount s.cfg + 1)).trans ?_
    rw [hsplit, runCalls_add, exec_ready rfl hr]
    exact congrArg _ (runCalls_idle (clearDisplayRule_noCall hr) _)
  · exact (run_byCalls (.inr rfl) hr hs rfl henc rfl (refreshTxCount s.cfg + 1)).trans
      (exec_ready (i := .refresh) rfl hr).symm

/-! ## Returned bytes -/

/-- Two lists of answers that fail at the same calls. -/
def SameFailures (as bs : List Answer) : Prop :=
  as.map (fun a => decide (a = .failed)) = bs.map (fun a => decide (a = .failed))

/-- `s'` is `s` but for the bytes that successful calls return. -/
def SameButReturned (s s' : State) : Prop := ∃ as, SameFailures as s.answers ∧ s' = { s with answers := as }

theorem SameFailures.tail {as bs : List Answer} (h : SameFailures as bs) : SameFailures as.tail bs.tail := by
  have := congrArg List.tail h
  rwa [← List.map_tail, ← List.map_tail] at this

/-- The next call fails in both or succeeds in both. -/
theorem SameFailures.nextAnswer {s : State} {as : List Answer} (h : SameFailures as s.answers) :
    (nextAnswer s = .failed ∧ nextAnswer { s with answers := as } = .failed) ∨
    ((∃ b, nextAnswer s = .ok b) ∧ ∃ b, nextAnswer { s with answers := as } = .ok b) := by
  unfold SameFailures at h
  unfold Machine.nextAnswer
  cases hs : s.answers with
  | nil =>
    rw [hs, List.map_nil, List.map_eq_nil_iff] at h
    subst h
    exact .inr ⟨⟨_, rfl⟩, ⟨_, rfl⟩⟩
  | cons a rest =>
    rw [hs] at h
    cases as with
    | nil => cases h
    | cons a' rest' =>
      have hhead : (a' = .failed) = (a = .failed) := by simpa using (List.cons.inj h).1
      cases a <;> cases a' <;> simp_all

theorem encoderStep_returned {s s' : State} (h : SameButReturned s s') :
    SameButReturned (encoderStep s) (encoderStep s') := by
  obtain ⟨as, has, rfl⟩ := h
  by_cases hp : HasCall s.pos
  · rcases has.nextAnswer with ⟨hf, hf'⟩ | ⟨⟨b, hb⟩, ⟨b', hb'⟩⟩
    · rw [encoderStep_failed hf hp, encoderStep_failed hf' hp]
      exact ⟨as.tail, has.tail, rfl⟩
    · rcases txPos_or_deassert hp with ht | hd
      · rw [encoderStep_sent hb ht, encoderStep_sent hb' ht]
        refine ⟨as.tail, by simpa using has.tail,
          (afterTx_withInputs (recordCall (.tx (nextByte s)) (useAnswer s)) s.fault as.tail).trans ?_⟩
        simp only [afterTx_fault, recordCall_fault, useAnswer_fault]
      · obtain ⟨m, hs, hm⟩ := encoderStep_deassert hb hd
        obtain ⟨m', hs', hm'⟩ := encoderStep_deassert hb' hd
        exact ⟨as.tail, by rw [hs]; exact has.tail, by rw [hs, hs', hm, hm']⟩
  · rw [encoderStep_none hp, encoderStep_none (s := { s with answers := as }) hp]
    exact ⟨as, has, rfl⟩

theorem openTransaction_returned (p : EncoderPos) {s s' : State} (h : SameButReturned s s') :
    SameButReturned (openTransaction p s) (openTransaction p s') := by
  obtain ⟨as, has, rfl⟩ := h
  rcases has.nextAnswer with ⟨hf, hf'⟩ | ⟨⟨b, hb⟩, ⟨b', hb'⟩⟩
  · rw [openTransaction_failed hf, openTransaction_failed hf']
    exact ⟨as.tail, has.tail, rfl⟩
  · rw [openTransaction_ok hb, openTransaction_ok hb']
    exact ⟨as.tail, has.tail, rfl⟩

theorem runCalls_returned (n : Nat) {s s' : State} (h : SameButReturned s s') :
    SameButReturned (runCalls n s) (runCalls n s') := by
  induction n generalizing s s' with
  | zero => exact h
  | succ n ih =>
    have hfault : s'.fault = s.fault := by
      obtain ⟨as, -, rfl⟩ := h
      rfl
    by_cases hf : s.fault = .noFault
    · rw [runCalls_succ hf, runCalls_succ (hfault.trans hf)]
      exact ih (encoderStep_returned h)
    · rw [runCalls_faulted hf, runCalls_faulted (by rwa [hfault])]
      exact h

theorem commandRule_returned (i : Instr) {s s' : State} (h : SameButReturned s s') :
    SameButReturned (commandRule i s) (commandRule i s') := by
  have hcfg : s'.cfg = s.cfg := by
    obtain ⟨as, -, rfl⟩ := h
    rfl
  cases i
  case clearDisplay => exact runCalls_returned 3 (openTransaction_returned _ h)
  case refresh =>
    show SameButReturned (refreshRule s) (refreshRule s')
    rw [refreshRule, refreshRule, hcfg]
    exact runCalls_returned _ (openTransaction_returned _ h)
  case setPixel v x y =>
    obtain ⟨as, has, rfl⟩ := h
    by_cases hp : InRange s.cfg (nativeOf s.cfg s.rot x y)
    · simp only [commandRule, setPixelRule_of_inRange v hp,
        setPixelRule_of_inRange (s := { s with answers := as }) v hp]
      exact ⟨as, has, rfl⟩
    · simp only [commandRule, setPixelRule_of_not v hp, setPixelRule_of_not (s := { s with answers := as }) v hp]
      exact ⟨as, has, rfl⟩
  all_goals
    obtain ⟨as, has, rfl⟩ := h
    exact ⟨as, has, rfl⟩

/-- Settles O52: an answer is read only for whether it is a failure, so blocks that differ in returned bytes go through
the same calls. -/
theorem returnedBytesAreIgnored : Obligations.ReturnedBytesAreIgnored := by
  intro i s t as has h
  suffices hsame : ∃ t', exec i { s with answers := as } = .next t' ∧ SameButReturned t t' by
    obtain ⟨t', ht', as', -, rfl⟩ := hsame
    exact ⟨as', ht'⟩
  have hs : SameButReturned s { s with answers := as } := ⟨as, has, rfl⟩
  cases hi : i.isCommand with
  | true =>
    rcases exec_cases hi h with ⟨hf, rfl⟩ | ⟨hf, hc, hsel, rfl⟩ | ⟨hr, rfl⟩
    · exact ⟨_, exec_sticky (s := { s with answers := as }) hi hf, as, has, rfl⟩
    · exact ⟨_, exec_overlap (s := { s with answers := as }) hi hf hc hsel, as, has, rfl⟩
    · exact ⟨_, exec_ready (s := { s with answers := as }) hi hr, commandRule_returned i hs⟩
  | false =>
    obtain ⟨hm, hw, rfl⟩ := exec_wire_next hi h
    exact ⟨_, exec_wireItemAt (s := { s with answers := as }) hm hw, encoderStep_returned hs⟩

end Sys2Proof.Machine
